-- ==== Sys2Proof/Word.lean ====
section
/-! DEFINITION. The word type of the engine and its plainest arithmetic (spec/00_scope.md R7, R9). -/
namespace Sys2Proof

/-- A Word: 32 bits, two's complement, bit 31 the sign (R7 `XLEN`, R9). `S(w)` of R9 is `w.toInt`, `U(w)` is `w.toNat`. -/
abbrev Word := BitVec 32

/-- One byte of a host's byte view of memory (R58). -/
abbrev Byte := BitVec 8

/-- `wrap32(v)` of R9: `v mod 2^32` as a 32-bit pattern. -/
def wrap32 (v : Int) : Word := BitVec.ofInt 32 v

end Sys2Proof
end

