-- ==== Sys2Proof/Syntax.lean ====
section
/-! DEFINITION. Resolved instructions (spec/30_encoding.md R75, R88): one constructor per row of the match table, with
the operands in the order of R75. -/
namespace Sys2Proof

/-- A resolved instruction (R88). A register operand is an integer ("register indices as integers"): a decoded word
only gives 0..31, the resolved boundary admits any (R26, R207). An immediate or offset is the 16-bit field whose
`sext_16` the handler uses (R89); a jump target is the 26-bit word index (R84). -/
inductive Instr where
  /-- R120, class I: add immediate with overflow check. -/
  | harddrop (rt rs : Int) (imm : BitVec 16)
  /-- R121, class R3: add with overflow check. -/
  | stack (rd rs rt : Int)
  /-- R122, class R3: subtract with overflow check. -/
  | garbage (rd rs rt : Int)
  /-- R123, class R3: multiply. -/
  | attack (rd rs rt : Int)
  /-- R124, class RR: divide. -/
  | delay (rs rt : Int)
  /-- R140, class M: load word. -/
  | next (rt : Int) (offset : BitVec 16) (base : Int)
  /-- R141, class M: store word. -/
  | hold (rt : Int) (offset : BitVec 16) (base : Int)
  /-- R150, class J: jump. -/
  | shift (target : BitVec 26)
  /-- R151, class B: branch if equal. -/
  | lineclear (rs rt : Int) (offset : BitVec 16)
  /-- R152, class B: branch if not equal. -/
  | nonclear (rs rt : Int) (offset : BitVec 16)
  /-- R165, class I: preview-add. -/
  | ghostpiece (rt rs : Int) (imm : BitVec 16)
  /-- R166, class R1: random increment. -/
  | drop (rd : Int)
  /-- R167, class RR: swap. -/
  | rotate (rs rt : Int)
  /-- R168, class I: subtract immediate. -/
  | slowgravity (rt rs : Int) (imm : BitVec 16)
  /-- R169, class IMM: add an immediate to the ten board cells. -/
  | combo (imm : BitVec 16)
  /-- R187, class N. -/
  | downstack
  /-- R188, class N. -/
  | topout
  /-- R189, class N. -/
  | allclear
  /-- R190, class N. -/
  | tetris
  /-- R191, class N. -/
  | viewboard
  deriving DecidableEq, Repr

end Sys2Proof
end

