-- ==== Sys2Proof/WellFormed.lean ====
section
/-! DEFINITION. Which resolved instructions a word can stand for: every register operand fits its 5-bit field
(spec/30_encoding.md R72, spec/10_state.md R26). Immediates and targets fit by their types. -/
namespace Sys2Proof

/-- A register operand of a decoded word names a slot in 0..31 (R26, R72). -/
def regFits (r : Int) : Bool := decide (0 ≤ r ∧ r ≤ 31)

/-- Every register operand fits a 5-bit field. -/
def Instr.wf : Instr → Bool
  | .harddrop rt rs _ => regFits rt && regFits rs
  | .stack rd rs rt => regFits rd && regFits rs && regFits rt
  | .garbage rd rs rt => regFits rd && regFits rs && regFits rt
  | .attack rd rs rt => regFits rd && regFits rs && regFits rt
  | .delay rs rt => regFits rs && regFits rt
  | .next rt _ base => regFits rt && regFits base
  | .hold rt _ base => regFits rt && regFits base
  | .shift _ => true
  | .lineclear rs rt _ => regFits rs && regFits rt
  | .nonclear rs rt _ => regFits rs && regFits rt
  | .ghostpiece rt rs _ => regFits rt && regFits rs
  | .drop rd => regFits rd
  | .rotate rs rt => regFits rs && regFits rt
  | .slowgravity rt rs _ => regFits rt && regFits rs
  | .combo _ => true
  | .downstack => true
  | .topout => true
  | .allclear => true
  | .tetris => true
  | .viewboard => true

end Sys2Proof
end

