-- ==== Sys2Proof/Decode.lean ====
section
/-! DEFINITION. The match table, the operand extractor and the decoder, total on all words, and after them the encoder
(spec/30_encoding.md R70 to R91). The table is an argument (R91); `encTable` is R85's. -/
namespace Sys2Proof

/-- The twenty mnemonics (R4). -/
inductive Mnemonic where
  | harddrop | stack | garbage | attack | delay | next | hold | shift | lineclear | nonclear
  | ghostpiece | drop | rotate | slowgravity | combo | downstack | topout | allclear | tetris | viewboard
  deriving DecidableEq, Repr

/-- The nine operand-format classes (R75). -/
inductive FormatClass where
  | r3 | rr | r1 | n | i | m | b | imm | j
  deriving DecidableEq, Repr

/-- One row of the match table: a mnemonic and its template, the pair (match, mask) of R73. `pattern` is the spec's
`match`. -/
structure EncRow where
  mnemonic : Mnemonic
  pattern  : Word
  mask     : Word
  deriving DecidableEq, Repr

/-- The mnemonics in the order of R4. -/
def allMnemonics : List Mnemonic :=
  [.harddrop, .stack, .garbage, .attack, .delay, .next, .hold, .shift, .lineclear, .nonclear] ++
  [.ghostpiece, .drop, .rotate, .slowgravity, .combo, .downstack, .topout, .allclear, .tetris, .viewboard]

/-- The class of each instruction (R75). -/
def classOf : Mnemonic → FormatClass
  | .stack => .r3 | .garbage => .r3 | .attack => .r3
  | .delay => .rr | .rotate => .rr
  | .drop => .r1
  | .downstack => .n | .topout => .n | .allclear => .n | .tetris => .n | .viewboard => .n
  | .harddrop => .i | .ghostpiece => .i | .slowgravity => .i
  | .next => .m | .hold => .m
  | .lineclear => .b | .nonclear => .b
  | .combo => .imm
  | .shift => .j

/-- The mask of each class: the bits that are no operand (R76 to R84). -/
def classMask : FormatClass → Word
  | .r3  => 0xFC0007FF#32
  | .rr  => 0xFC00FFFF#32
  | .r1  => 0xFFFF07FF#32
  | .n   => 0xFFFFFFFF#32
  | .i   => 0xFC000000#32
  | .m   => 0xFC000000#32
  | .b   => 0xFC000000#32
  | .imm => 0xFFFF0000#32
  | .j   => 0xFC000000#32

/-- `ENC_TABLE`'s default, the match table of R85. -/
def encTable : List EncRow :=
  [⟨.harddrop, 0x20000000#32, 0xFC000000#32⟩,
   ⟨.stack, 0x00000020#32, 0xFC0007FF#32⟩,
   ⟨.garbage, 0x00000022#32, 0xFC0007FF#32⟩,
   ⟨.attack, 0x70000002#32, 0xFC0007FF#32⟩,
   ⟨.delay, 0x0000001A#32, 0xFC00FFFF#32⟩] ++
  [⟨.next, 0x8C000000#32, 0xFC000000#32⟩,
   ⟨.hold, 0xAC000000#32, 0xFC000000#32⟩,
   ⟨.shift, 0x08000000#32, 0xFC000000#32⟩,
   ⟨.lineclear, 0x10000000#32, 0xFC000000#32⟩,
   ⟨.nonclear, 0x14000000#32, 0xFC000000#32⟩] ++
  [⟨.ghostpiece, 0x60000000#32, 0xFC000000#32⟩,
   ⟨.drop, 0x7C000001#32, 0xFFFF07FF#32⟩,
   ⟨.rotate, 0x7C000000#32, 0xFC00FFFF#32⟩,
   ⟨.slowgravity, 0x64000000#32, 0xFC000000#32⟩,
   ⟨.combo, 0x68000000#32, 0xFFFF0000#32⟩] ++
  [⟨.downstack, 0x7C000010#32, 0xFFFFFFFF#32⟩,
   ⟨.topout, 0x7C000011#32, 0xFFFFFFFF#32⟩,
   ⟨.allclear, 0x7C000012#32, 0xFFFFFFFF#32⟩,
   ⟨.tetris, 0x7C000013#32, 0xFFFFFFFF#32⟩,
   ⟨.viewboard, 0x7C000014#32, 0xFFFFFFFF#32⟩]

/-- A word matches a template when `(w & mask) == match` (R73). -/
def rowHits (r : EncRow) (w : Word) : Bool := w &&& r.mask == r.pattern

/-- Two templates differ in some bit that both fix (R74). -/
def rowsDiffer (a b : EncRow) : Bool := (a.pattern ^^^ b.pattern) &&& a.mask &&& b.mask != 0#32

/-- R73 and R91 on one row: the match is 0 outside the mask, and the mask is at least the class's mask. -/
def rowOk (r : EncRow) : Bool :=
  r.pattern &&& r.mask == r.pattern && classMask (classOf r.mnemonic) &&& r.mask == classMask (classOf r.mnemonic)

/-- R74 on a table: any two distinct rows differ in some bit that both fix. -/
def tableUnambiguous : List EncRow → Bool
  | [] => true
  | r :: t => t.all (rowsDiffer r) && tableUnambiguous t

/-- The tables a model should accept (R91): twenty rows, one per mnemonic, each sound, and together unambiguous. -/
def tableOk (T : List EncRow) : Bool :=
  T.length == 20 && allMnemonics.all (fun m => T.any (fun r => r.mnemonic == m)) && T.all rowOk && tableUnambiguous T

/-- `w[25:21]` as a register index (R72). -/
def rsOf (w : Word) : Int := (w.extractLsb' 21 5).toNat
/-- `w[20:16]` as a register index (R72). -/
def rtOf (w : Word) : Int := (w.extractLsb' 16 5).toNat
/-- `w[15:11]` as a register index (R72). -/
def rdOf (w : Word) : Int := (w.extractLsb' 11 5).toNat
/-- `w[15:0]`, the immediate or offset field (R72, R89). -/
def immOf (w : Word) : BitVec 16 := w.extractLsb' 0 16
/-- `w[25:0]`, the jump target field (R72, R89). -/
def targetOf (w : Word) : BitVec 26 := w.extractLsb' 0 26

/-- The operand extractor: the operand list of the mnemonic's class, in the order of R75 (R76 to R84, R90). -/
def resolve (m : Mnemonic) (w : Word) : Instr :=
  match m with
  | .harddrop => .harddrop (rtOf w) (rsOf w) (immOf w)
  | .stack => .stack (rdOf w) (rsOf w) (rtOf w)
  | .garbage => .garbage (rdOf w) (rsOf w) (rtOf w)
  | .attack => .attack (rdOf w) (rsOf w) (rtOf w)
  | .delay => .delay (rsOf w) (rtOf w)
  | .next => .next (rtOf w) (immOf w) (rsOf w)
  | .hold => .hold (rtOf w) (immOf w) (rsOf w)
  | .shift => .shift (targetOf w)
  | .lineclear => .lineclear (rsOf w) (rtOf w) (immOf w)
  | .nonclear => .nonclear (rsOf w) (rtOf w) (immOf w)
  | .ghostpiece => .ghostpiece (rtOf w) (rsOf w) (immOf w)
  | .drop => .drop (rdOf w)
  | .rotate => .rotate (rsOf w) (rtOf w)
  | .slowgravity => .slowgravity (rtOf w) (rsOf w) (immOf w)
  | .combo => .combo (immOf w)
  | .downstack => .downstack
  | .topout => .topout
  | .allclear => .allclear
  | .tetris => .tetris
  | .viewboard => .viewboard

/-- What the decoder answers (R90): a resolved instruction, or the illegal word by name (R87). -/
inductive Decoded where
  | resolved (i : Instr)
  | illegal (w : Word)
  deriving DecidableEq, Repr

/-- `decode` of R90 for a table: the row that hits. For a table of R91 at most one row hits (R74); for another the
first row that hits is taken (DESIGN CHOICE, log 9). -/
def decodeWith (T : List EncRow) (w : Word) : Decoded :=
  match T.find? (fun r => rowHits r w) with
  | some r => .resolved (resolve r.mnemonic w)
  | none => .illegal w

/-- `decode` of R90 with the match table of R85. -/
def decode (w : Word) : Decoded := decodeWith encTable w

/-- The instruction the decoder reads from the `nbits` bits of `w`, bit 0 the least significant (for the host). Every
instruction is one 32-bit word (R70). -/
def decodeTableWord (nbits w : Nat) : Option Instr :=
  match decode (BitVec.ofNat 32 (w % 2 ^ nbits)) with
  | .resolved i => some i
  | .illegal _ => none

/-- The 5-bit field of a register operand (R72). -/
def regField (r : Int) : BitVec 5 := BitVec.ofInt 5 r

/-- A register operand in `w[25:21]` (R72). -/
def putRs (r : Int) : Word := (regField r).setWidth 32 <<< 21
/-- A register operand in `w[20:16]` (R72). -/
def putRt (r : Int) : Word := (regField r).setWidth 32 <<< 16
/-- A register operand in `w[15:11]` (R72). -/
def putRd (r : Int) : Word := (regField r).setWidth 32 <<< 11
/-- An immediate or offset in `w[15:0]` (R72). -/
def putImm (v : BitVec 16) : Word := v.setWidth 32
/-- A jump target in `w[25:0]` (R72). -/
def putTarget (v : BitVec 26) : Word := v.setWidth 32

/-- Operands of class `R3` in their fields, the fixed bits 0 (R76). -/
def layoutR3 (rs rt rd : Int) : Word := putRs rs ||| putRt rt ||| putRd rd
/-- Operands of class `RR` in their fields, the fixed bits 0 (R77). -/
def layoutRR (rs rt : Int) : Word := putRs rs ||| putRt rt
/-- Operands of classes `I`, `M` and `B` in their fields, the fixed bits 0 (R80, R81, R82). -/
def layoutI (rs rt : Int) (imm : BitVec 16) : Word := putRs rs ||| putRt rt ||| putImm imm

/-- The mnemonic of a resolved instruction (R88). -/
def mnemonicOf : Instr → Mnemonic
  | .harddrop _ _ _ => .harddrop
  | .stack _ _ _ => .stack
  | .garbage _ _ _ => .garbage
  | .attack _ _ _ => .attack
  | .delay _ _ => .delay
  | .next _ _ _ => .next
  | .hold _ _ _ => .hold
  | .shift _ => .shift
  | .lineclear _ _ _ => .lineclear
  | .nonclear _ _ _ => .nonclear
  | .ghostpiece _ _ _ => .ghostpiece
  | .drop _ => .drop
  | .rotate _ _ => .rotate
  | .slowgravity _ _ _ => .slowgravity
  | .combo _ => .combo
  | .downstack => .downstack
  | .topout => .topout
  | .allclear => .allclear
  | .tetris => .tetris
  | .viewboard => .viewboard

/-- The operand bits of an instruction's word, by its class's layout (R76 to R84). -/
def operandBits : Instr → Word
  | .harddrop rt rs imm => layoutI rs rt imm
  | .stack rd rs rt => layoutR3 rs rt rd
  | .garbage rd rs rt => layoutR3 rs rt rd
  | .attack rd rs rt => layoutR3 rs rt rd
  | .delay rs rt => layoutRR rs rt
  | .next rt offset base => layoutI base rt offset
  | .hold rt offset base => layoutI base rt offset
  | .shift target => putTarget target
  | .lineclear rs rt offset => layoutI rs rt offset
  | .nonclear rs rt offset => layoutI rs rt offset
  | .ghostpiece rt rs imm => layoutI rs rt imm
  | .drop rd => putRd rd
  | .rotate rs rt => layoutRR rs rt
  | .slowgravity rt rs imm => layoutI rs rt imm
  | .combo imm => putImm imm
  | .downstack => 0#32
  | .topout => 0#32
  | .allclear => 0#32
  | .tetris => 0#32
  | .viewboard => 0#32

/-- The word of an instruction under a table: the row's match with the operand bits in its placeholders (R73). `none`
where the table has no row of the mnemonic. -/
def encodeWith (T : List EncRow) (i : Instr) : Option Word :=
  match T.find? (fun r => r.mnemonic == mnemonicOf i) with
  | some r => some (r.pattern ||| operandBits i)
  | none => none

/-- The word of a well-formed instruction under the match table of R85, which has a row of every mnemonic. -/
def encode (i : Instr) : Word := (encodeWith encTable i).getD 0#32

end Sys2Proof
end

