-- ==== Sys2Proof/Config.lean ====
section
/-! DEFINITION. What the spec leaves open as a named parameter (spec/00_scope.md R8): the type of a memory map, the
values the machine has at reset where no argument is given, and the free value of the random input. -/
namespace Sys2Proof

/-- A run of mapped words: every 4-aligned address from `first` to `last`, both included, read unsigned. A `MEM_MAP`
(R51) is a list of such runs; any set of aligned addresses can be written so. -/
structure Region where
  first : Word
  last  : Word
  deriving DecidableEq, Repr

namespace Config

/-- `RAND` (R8, R37): the value the 2-bit `rand` input shows at the `n`-th draw of a run when no supplied draw is left.
FREE VALUE (log 6): it has no body, so a claim holds for every sequence of draws ("any value in {1, 2, 3, 4}", U3). -/
opaque rand : Nat → BitVec 2

/-- `REG_RESET` (R236): "Its default is all zero". DESIGN CHOICE (log 4). UNSAFE if a claim rests on it. -/
def regReset : Vector Word 34 := Vector.replicate 34 0#32

/-- `PC_RESET` (R237), open in the spec; the common start state of 95_test_vectors.md section 3 has this value.
DESIGN CHOICE (log 3). UNSAFE if a claim rests on it. -/
def pcReset : Word := 0x00001000#32

/-- `MEM_MAP` (R51), open in the spec: at reset every 4-aligned address is mapped. DESIGN CHOICE (log 2). UNSAFE if a
claim rests on it: statements take any map. -/
def memMap : List Region := [⟨0x00000000#32, 0xFFFFFFFC#32⟩]

/-- `END_PC` (R110), open in the spec: at reset no end address is set. DESIGN CHOICE (log 5). Safe: the model only
goes on where the reference host would stop presenting instructions if it set one. -/
def endPc : Option Word := none

end Config
end Sys2Proof
end

