-- ==== Sys2Proof/Machine/State.lean ====
section
/-! DEFINITION. The state of the engine (spec/10_state.md R41), the four conditions (spec/60_exceptions.md R204), the
output events (R36), the ways a step can stop, and the state right after reset (R235 to R239). -/
namespace Sys2Proof.Machine

/-- The four conditions (R204). The taxonomy is closed. -/
inductive Condition where
  | arithmeticOverflow
  | addressError
  | invalidRegister
  | unknownInstruction
  deriving DecidableEq, Repr

/-- What a handler, the fetch or the decoder raises: `E(info)` of R209. -/
structure Raised where
  cond : Condition
  info : Word
  deriving DecidableEq, Repr

/-- What the fault latch holds: the triple `(code, info, pc)` of R34, the code as the condition it names. -/
structure FaultRecord where
  cond : Condition
  info : Word
  pc   : Word
  deriving DecidableEq, Repr

/-- An output event with its data (R36). -/
inductive Event where
  /-- `ghostpiece`: the sum written to the destination. -/
  | ghostpiece (sum : Word)
  /-- `topout` when its guard holds: the score before it was cleared. -/
  | topout (oldScore : Word)
  /-- `allclear` when its guard holds. -/
  | allclear
  /-- `tetris` when its guard holds. -/
  | tetris
  /-- `viewboard`: the ten cells in order. -/
  | viewboard (cells : List Word)
  deriving DecidableEq, Repr

/-- Memory as a host's byte view (R51, R58): pairs of a byte address and its byte, addresses strictly rising, none
equal to what an unlisted address reads as. -/
abbrev Memory := List Host.Cell

/-- What a byte no pair lists reads as. Any `MEM_INIT` (R51, R238) can be listed over it. DESIGN CHOICE (log 1). UNSAFE
only where a claim rests on the contents State.reset has. -/
def unlistedByte : Byte := 0#8

/-- The state of the engine (R41), and after it the run's parameters and inputs that R41 keeps beside it. -/
structure State where
  /-- The 34 slots of the register file: `r0`..`r31`, HIGH, LOW (R20, R21). -/
  regs : Vector Word 34
  /-- The program counter (R30). -/
  pc : Word
  /-- Memory (R51). -/
  mem : Memory
  /-- The fault latch (R34, R209). -/
  fault : Option FaultRecord
  /-- The output history, oldest first (R36). -/
  out : List Event
  /-- `MEM_MAP` (R51): a parameter of the run. -/
  memMap : List Region
  /-- `END_PC` (R110): a parameter of the run. -/
  endPc : Option Word
  /-- The values the `rand` input is still to show, where a test supplies them (R37). -/
  draws : List (BitVec 2)
  /-- The model's own: how many draws have been consumed, the index of the free value `Config.rand` (log 6). -/
  drawCount : Nat
  deriving DecidableEq, Repr

/-- Why a step gives no next state. The four conditions of R204 are no constructors here: raising one is a next state
whose latch is set (R209); this is what comes after. -/
inductive Fault where
  /-- The fault latch is set: "a state whose fault latch is set has no further step and is not a final state" (R109).
  Raised by `fetchWith` before anything else. Safe: the model stops where a host that skips the instruction goes on. -/
  | latched (r : FaultRecord)
  /-- `pc == END_PC` before a fetch and no fault: the run is over, the state is final (R110). Raised by `fetchWith`.
  Safe: the model stops where a host without that end address goes on. -/
  | runEnded
  deriving DecidableEq, Repr

/-- Why the model declines an instruction. -/
inductive Refusal where
  /-- An instruction with no meaning in the model yet, by its mnemonic. No arm of `exec` raises it: every instruction has
  its meaning. Safe. -/
  | notModelled (mnemonic : String)
  deriving DecidableEq, Repr

/-- The open parameters of a run (R8): what the environment fixes before the first instruction (R240). -/
structure RunParams where
  regReset : Vector Word 34
  pcReset  : Word
  memInit  : Memory
  memMap   : List Region
  endPc    : Option Word
  draws    : List (BitVec 2)
  deriving DecidableEq, Repr

/-- The start of a run (R235 to R240): slots at `REG_RESET`, `pc` at `PC_RESET`, memory at `MEM_INIT`, the latch
`none`, the history empty, no draw consumed. -/
def State.start (p : RunParams) : State :=
  { regs := p.regReset, pc := p.pcReset, mem := p.memInit, fault := none, out := [],
    memMap := p.memMap, endPc := p.endPc, draws := p.draws, drawCount := 0 }

/-- The parameters where no argument is given: logs 1 to 6 (DESIGN CHOICE). -/
def RunParams.default : RunParams :=
  { regReset := Config.regReset, pcReset := Config.pcReset, memInit := [], memMap := Config.memMap,
    endPc := Config.endPc, draws := [] }

/-- The machine right after reset (R235 to R239), with the default parameters. -/
def State.reset : State := State.start RunParams.default

end Sys2Proof.Machine
end

