-- ==== Sys2Proof/Machine/Ops.lean ====
section
/-! DEFINITION. The named operations over registers, memory, output, draws and the latch, and the one way an instruction
ends: commit or abort (spec/10_state.md R24 to R37, spec/20_memory.md R51 to R58, spec/40_dispatch.md R103,
spec/60_exceptions.md R204 to R210). -/
namespace Sys2Proof.Machine

/-! ### Registers (R20 to R25) -/

/-- The slot an index names, or `InvalidRegister(i)` for an index outside 0..33, its info the index modulo 2^32
(R24, R25, R204). -/
def regSlot (i : Int) : Except Raised (Fin 34) :=
  if h : 0 ≤ i ∧ i ≤ 33 then .ok ⟨i.toNat, by omega⟩ else .error ⟨.invalidRegister, wrap32 i⟩

/-- The Word in a slot. No slot is hardwired (R22). -/
def State.slot (s : State) (j : Fin 34) : Word := s.regs[j.val]

/-- A slot replaced by a Word, all 32 bits (R25). -/
def State.setSlot (s : State) (j : Fin 34) (v : Word) : State := { s with regs := s.regs.set j.val v }

/-- `x[i]`, the register read (R24). -/
def State.readReg (s : State) (i : Int) : Except Raised Word :=
  match regSlot i with
  | .ok j => .ok (s.slot j)
  | .error e => .error e

/-- HIGH is slot 32 (R21). -/
def highSlot : Fin 34 := 32
/-- LOW is slot 33 (R21). -/
def lowSlot : Fin 34 := 33
/-- The score is slot 16 (R23). -/
def scoreSlot : Fin 34 := 16
/-- The ten board slots in cell order (R23). -/
def boardSlots : List (Fin 34) := [8, 9, 10, 11, 12, 13, 14, 15, 24, 25]

/-- The Board View: the ten cells in order (R23). -/
def State.board (s : State) : List Word := boardSlots.map s.slot

/-- Every board cell replaced by `f` of its value before the instruction (R169, R187, R188, R190). -/
def State.mapBoard (s : State) (f : Word → Word) : State :=
  boardSlots.foldl (fun t j => t.setSlot j (f (s.slot j))) s

/-! ### The program counter (R30, R31) -/

/-- `npc = wrap32(pc + 4)` (R30). -/
def State.npc (s : State) : Word := wrap32 (s.pc.toNat + 4)

/-- `pc <- target` (R31). -/
def State.setPc (s : State) (a : Word) : State := { s with pc := a }

/-! ### Memory (R50 to R58) -/

/-- The byte at an address: the one listed for it, else `unlistedByte`. -/
def readByte : Memory → Nat → Byte
  | [], _ => unlistedByte
  | (k, v) :: m, a => if k = a then v else readByte m a

/-- The byte at an address replaced, the canonical form kept. -/
def writeByte : Memory → Nat → Byte → Memory
  | [], a, b => if b = unlistedByte then [] else [(a, b)]
  | (k, v) :: m, a, b =>
    if a < k then (if b = unlistedByte then (k, v) :: m else (a, b) :: (k, v) :: m)
    else if a = k then (if b = unlistedByte then m else (a, b) :: m)
    else (k, v) :: writeByte m a b

/-- The canonical form from an address on: addresses strictly rising, below 2^32 (R50), no byte listed that an unlisted
address reads as. -/
def memWfFrom (lo : Nat) : Memory → Bool
  | [] => true
  | (k, v) :: m => decide (lo ≤ k) && decide (k < 2 ^ 32) && v != unlistedByte && memWfFrom (k + 1) m

/-- The canonical form of memory. -/
def memWf (m : Memory) : Bool := memWfFrom 0 m

/-- `mem[a]`: the byte at `a + k` is `mem[a][8k+7 : 8k]` (R58). -/
def readWord (m : Memory) (a : Nat) : Word :=
  readByte m (a + 3) ++ readByte m (a + 2) ++ readByte m (a + 1) ++ readByte m a

/-- `mem[a] <- v`, all 32 bits (R55, R58). -/
def writeWord (m : Memory) (a : Nat) (v : Word) : Memory :=
  writeByte (writeByte (writeByte (writeByte m a (v.extractLsb' 0 8)) (a + 1) (v.extractLsb' 8 8))
    (a + 2) (v.extractLsb' 16 8)) (a + 3) (v.extractLsb' 24 8)

/-- `addr[1:0] == 0b00` (R54). -/
def aligned (a : Word) : Bool := a.extractLsb' 0 2 == 0#2

/-- Whether a map holds an address (R51). -/
def inMap (map : List Region) (a : Word) : Bool := map.any fun r => decide (r.first ≤ a) && decide (a ≤ r.last)

/-- The access check of R54 and R55: alignment first, then the map (R56). -/
def State.checkAddr (s : State) (a : Word) : Except Raised Unit :=
  if aligned a = false then .error ⟨.addressError, a⟩
  else if inMap s.memMap a = false then .error ⟨.addressError, a⟩
  else .ok ()

/-- `MemRead(addr, 4)` (R54). -/
def State.memRead (s : State) (a : Word) : Except Raised Word :=
  match s.checkAddr a with
  | .ok _ => .ok (readWord s.mem a.toNat)
  | .error e => .error e

/-- Memory after a store of a Word at an address that passed the check (R55). -/
def State.setMem (s : State) (a v : Word) : State := { s with mem := writeWord s.mem a.toNat v }

/-- `MemWrite(addr, 4, v)` (R55). -/
def State.memWrite (s : State) (a v : Word) : Except Raised State :=
  match s.checkAddr a with
  | .ok _ => .ok (s.setMem a v)
  | .error e => .error e

/-! ### Output and draws (R36, R37) -/

/-- `Emit`: one event appended to the history (R36). -/
def State.emit (s : State) (e : Event) : State := { s with out := s.out ++ [e] }

/-- The kind code of an event (R36). -/
def eventKind : Event → BitVec 3
  | .ghostpiece _ => 1#3
  | .topout _ => 2#3
  | .allclear => 3#3
  | .tetris => 4#3
  | .viewboard _ => 5#3

/-- The data words of an event (R36). -/
def eventData : Event → List Word
  | .ghostpiece v => [v]
  | .topout v => [v]
  | .allclear => []
  | .tetris => []
  | .viewboard cells => cells

/-- What the `rand` input shows: the next supplied value, else the free value (R37, log 6). -/
def State.rand (s : State) : BitVec 2 :=
  match s.draws with
  | r :: _ => r
  | [] => Config.rand s.drawCount

/-- `Draw() = zext_2(rand) + 1` (R37). -/
def State.draw (s : State) : Int := s.rand.toNat + 1

/-- One draw consumed (R166). -/
def State.consumeDraw (s : State) : State := { s with draws := s.draws.tail, drawCount := s.drawCount + 1 }

/-! ### Raising a condition, and reset (R204, R209, R210) -/

/-- The numeric codes of the conditions (R204). -/
def conditionCode : Condition → BitVec 3
  | .arithmeticOverflow => 1#3
  | .addressError => 2#3
  | .invalidRegister => 3#3
  | .unknownInstruction => 4#3

/-- The `fault_code` port: 0 means "no fault" (R40, R204). -/
def State.faultCode (s : State) : BitVec 3 :=
  match s.fault with
  | none => 0#3
  | some r => conditionCode r.cond

/-- `raise E(info)` (R209): the latch becomes `(code(E), info, pc)` with the faulting instruction's `pc`; nothing else
changes. The one way a condition is taken. There is no return from it (R210). -/
def State.raise (s : State) (e : Raised) : State := { s with fault := some ⟨e.cond, e.info, s.pc⟩ }

/-- The end of every instruction (R103): the handler's result is committed whole, or the instruction aborts with
nothing of it visible and its condition is raised on the state before it. -/
def State.commit (s : State) : Except Raised State → Host.Outcome State Fault Refusal
  | .ok t => .next t
  | .error e => .next (s.raise e)

/-- The host asserts `rst` between two instructions (R39, R235): slots, `pc`, latch and history as at the start of a
run; memory, the map, the end address and the environment's draws are left alone (R235, R239, log 13). -/
def State.assertRst (s : State) (p : RunParams) : State :=
  { s with regs := p.regReset, pc := p.pcReset, fault := none, out := [] }

/-- The `reg_dbg` port (R40): a host's read of a slot by its 6-bit index, between instructions (R39). -/
def State.debugReg (s : State) (idx : BitVec 6) : Except Raised Word := s.readReg idx.toNat

end Sys2Proof.Machine
end

