-- ==== Sys2Proof/Machine/Operands.lean ====
section
/-! DEFINITION. The operand forms: sign extension, the wrapping adder, the effective address and the target calculator
(spec/30_encoding.md R89, spec/41_arithmetic.md R118, spec/42_loadstore.md R142, spec/43_control.md R149 to R153). -/
namespace Sys2Proof.Machine

/-- `sext_16` as a 32-bit Word (R89). -/
def sext16 (v : BitVec 16) : Word := v.signExtend 32

/-- `wrap32(S(a) + S(b))` (R118). -/
def addWrap (a b : Word) : Word := wrap32 (a.toInt + b.toInt)

/-- `wrap32(S(a) - S(b))` (R118). -/
def subWrap (a b : Word) : Word := wrap32 (a.toInt - b.toInt)

/-- The effective address of `next` and `hold` (R142). -/
def effectiveAddr (base : Word) (offset : BitVec 16) : Word := wrap32 (base.toNat + offset.toInt)

/-- `npc[31:28] ++ target[25:0] ++ 0b00` (R150). -/
def jumpTarget (npc : Word) (target : BitVec 26) : Word := npc.extractLsb' 28 4 ++ target ++ 0#2

/-- `wrap32(npc + 4 * sext_16(offset))` (R153). -/
def branchTarget (npc : Word) (offset : BitVec 16) : Word := wrap32 (npc.toNat + 4 * offset.toInt)

end Sys2Proof.Machine
end

