-- ==== Sys2Proof/Machine/Flags.lean ====
section
/-! DEFINITION. The combinational predicates: there are no stored flags (spec/10_state.md R33). The two overflow
predicates (spec/41_arithmetic.md R119) and the four board guards (spec/45_board.md R186). -/
namespace Sys2Proof.Machine

/-- `add_ovf(a, b)` (R119). -/
def addOvf (a b : Word) : Bool := a.msb == b.msb && (addWrap a b).msb != a.msb

/-- `sub_ovf(a, b)` (R119). -/
def subOvf (a b : Word) : Bool := a.msb != b.msb && (subWrap a b).msb == b.msb

/-- `ALL_GE1`, the guard of `downstack` (R186). -/
def State.allGe1 (s : State) : Bool := s.board.all fun v => decide (v.toInt ≥ 1)

/-- `ANY_GE20`, the guard of `topout` (R186). -/
def State.anyGe20 (s : State) : Bool := s.board.any fun v => decide (v.toInt ≥ 20)

/-- `ALL_EQ0`, the guard of `allclear` (R186). -/
def State.allEq0 (s : State) : Bool := s.board.all fun v => v == 0#32

/-- `ALL_GE4`, the guard of `tetris` (R186). -/
def State.allGe4 (s : State) : Bool := s.board.all fun v => decide (v.toInt ≥ 4)

end Sys2Proof.Machine
end

