-- ==== Sys2Proof/Machine/Arithmetic.lean ====
section
/-! DEFINITION. The arithmetic instructions (spec/41_arithmetic.md R120 to R124). -/
namespace Sys2Proof.Machine

/-- The checked end of R120 to R122: on overflow `ArithmeticOverflow`, else the result written and `pc <- npc`. -/
def State.checkedWrite (s : State) (d : Fin 34) (ovf : Bool) (v : Word) : Except Raised State :=
  if ovf then .error ⟨.arithmeticOverflow, 0#32⟩ else .ok ((s.setSlot d v).setPc s.npc)

/-- `harddrop rt, rs, imm` (R120). -/
def execHarddrop (rt rs : Int) (imm : BitVec 16) (s : State) : Host.Outcome State Fault Refusal :=
  s.commit do
    let a ← s.readReg rs
    let d ← regSlot rt
    s.checkedWrite d (addOvf a (sext16 imm)) (addWrap a (sext16 imm))

/-- `stack rd, rs, rt` (R121). -/
def execStack (rd rs rt : Int) (s : State) : Host.Outcome State Fault Refusal :=
  s.commit do
    let a ← s.readReg rs
    let b ← s.readReg rt
    let d ← regSlot rd
    s.checkedWrite d (addOvf a b) (addWrap a b)

/-- `garbage rd, rs, rt` (R122): the minuend is `rs`, the subtrahend `rt`. -/
def execGarbage (rd rs rt : Int) (s : State) : Host.Outcome State Fault Refusal :=
  s.commit do
    let a ← s.readReg rs
    let b ← s.readReg rt
    let d ← regSlot rd
    s.checkedWrite d (subOvf a b) (subWrap a b)

/-- The exact product as a 64-bit two's complement pattern (R123). -/
def product (a b : Word) : BitVec 64 := BitVec.ofInt 64 (a.toInt * b.toInt)

/-- `attack rd, rs, rt` (R123): the writes in the rule's order, so the last write to a slot stands (R104). -/
def execAttack (rd rs rt : Int) (s : State) : Host.Outcome State Fault Refusal :=
  s.commit do
    let a ← s.readReg rs
    let b ← s.readReg rt
    let d ← regSlot rd
    let lo := (product a b).extractLsb' 0 32
    let hi := (product a b).extractLsb' 32 32
    .ok ((((s.setSlot d lo).setSlot highSlot hi).setSlot lowSlot lo).setPc s.npc)

/-- The quotient rounded toward zero (R124). -/
def quotient (a b : Word) : Int := Int.tdiv a.toInt b.toInt

/-- The remainder `r = a - q * b` (R124). -/
def remainder (a b : Word) : Int := a.toInt - quotient a b * b.toInt

/-- `delay rs, rt` (R124): dividend `rs`, divisor `rt`; divisor 0 is a no-op with no exception. -/
def execDelay (rs rt : Int) (s : State) : Host.Outcome State Fault Refusal :=
  s.commit do
    let a ← s.readReg rs
    let b ← s.readReg rt
    if b = 0#32 then .ok (s.setPc s.npc)
    else .ok (((s.setSlot highSlot (wrap32 (remainder a b))).setSlot lowSlot (wrap32 (quotient a b))).setPc s.npc)

end Sys2Proof.Machine
end

