-- ==== Sys2Proof/Machine/Board.lean ====
section
/-! DEFINITION. The board and score instructions (spec/45_board.md R187 to R191). Each transition is all-or-nothing
(R185) and `pc` advances either way. -/
namespace Sys2Proof.Machine

/-- The score (R23). -/
def State.score (s : State) : Word := s.slot scoreSlot

/-- A guarded transition: applied whole where the guard holds, else nothing; then `pc <- npc` (R185). -/
def State.guarded (s : State) (guard : Bool) (t : State) : Host.Outcome State Fault Refusal :=
  s.commit (.ok ((if guard then t else s).setPc s.npc))

/-- `downstack` (R187). -/
def execDownstack (s : State) : Host.Outcome State Fault Refusal :=
  s.guarded s.allGe1 ((s.mapBoard fun v => subWrap v 1#32).setSlot scoreSlot (addWrap s.score 1#32))

/-- `topout` (R188). -/
def execTopout (s : State) : Host.Outcome State Fault Refusal :=
  s.guarded s.anyGe20 (((s.mapBoard fun _ => 0#32).setSlot scoreSlot 0#32).emit (.topout s.score))

/-- `allclear` (R189). -/
def execAllclear (s : State) : Host.Outcome State Fault Refusal :=
  s.guarded s.allEq0 ((s.setSlot scoreSlot (wrap32 (2 * s.score.toInt))).emit .allclear)

/-- `tetris` (R190). -/
def execTetris (s : State) : Host.Outcome State Fault Refusal :=
  s.guarded s.allGe4 (((s.mapBoard fun v => subWrap v 4#32).setSlot scoreSlot (addWrap s.score 5#32)).emit .tetris)

/-- `viewboard` (R191). -/
def execViewboard (s : State) : Host.Outcome State Fault Refusal :=
  s.commit (.ok ((s.emit (.viewboard s.board)).setPc s.npc))

end Sys2Proof.Machine
end

