-- ==== Sys2Proof/Machine/Control.lean ====
section
/-! DEFINITION. Jump and branches (spec/43_control.md R150 to R152). No delay slot, no link (R155). -/
namespace Sys2Proof.Machine

/-- `shift target` (R150). -/
def execShift (target : BitVec 26) (s : State) : Host.Outcome State Fault Refusal :=
  s.commit (.ok (s.setPc (jumpTarget s.npc target)))

/-- `lineclear rs, rt, offset` (R151). -/
def execLineclear (rs rt : Int) (offset : BitVec 16) (s : State) : Host.Outcome State Fault Refusal :=
  s.commit do
    let a ← s.readReg rs
    let b ← s.readReg rt
    .ok (s.setPc (if a = b then branchTarget s.npc offset else s.npc))

/-- `nonclear rs, rt, offset` (R152). -/
def execNonclear (rs rt : Int) (offset : BitVec 16) (s : State) : Host.Outcome State Fault Refusal :=
  s.commit do
    let a ← s.readReg rs
    let b ← s.readReg rt
    .ok (s.setPc (if a ≠ b then branchTarget s.npc offset else s.npc))

end Sys2Proof.Machine
end

