-- ==== Sys2Proof/Machine/LoadStore.lean ====
section
/-! DEFINITION. Load word and store word (spec/42_loadstore.md R140, R141). -/
namespace Sys2Proof.Machine

/-- `next rt, offset(base)` (R140). The destination index is checked before the access (R212). -/
def execNext (rt : Int) (offset : BitVec 16) (base : Int) (s : State) : Host.Outcome State Fault Refusal :=
  s.commit do
    let b ← s.readReg base
    let d ← regSlot rt
    let v ← s.memRead (effectiveAddr b offset)
    .ok ((s.setSlot d v).setPc s.npc)

/-- `hold rt, offset(base)` (R141). -/
def execHold (rt : Int) (offset : BitVec 16) (base : Int) (s : State) : Host.Outcome State Fault Refusal :=
  s.commit do
    let b ← s.readReg base
    let v ← s.readReg rt
    let t ← s.memWrite (effectiveAddr b offset) v
    .ok (t.setPc s.npc)

end Sys2Proof.Machine
end

