-- ==== Sys2Proof/Machine/Themed.lean ====
section
/-! DEFINITION. The themed register instructions (spec/44_themed_alu.md R165 to R169). None checks overflow (R118). -/
namespace Sys2Proof.Machine

/-- `ghostpiece rt, rs, imm` (R165): the sum is written and emitted. -/
def execGhostpiece (rt rs : Int) (imm : BitVec 16) (s : State) : Host.Outcome State Fault Refusal :=
  s.commit do
    let a ← s.readReg rs
    let d ← regSlot rt
    let sum := addWrap a (sext16 imm)
    .ok (((s.setSlot d sum).emit (.ghostpiece sum)).setPc s.npc)

/-- `drop rd` (R166): one draw is consumed; an aborted `drop` consumes none (R107, log 10). -/
def execDrop (rd : Int) (s : State) : Host.Outcome State Fault Refusal :=
  s.commit do
    let d ← regSlot rd
    .ok ((s.consumeDraw.setSlot d (wrap32 ((s.slot d).toInt + s.draw))).setPc s.npc)

/-- `rotate rs, rt` (R167). -/
def execRotate (rs rt : Int) (s : State) : Host.Outcome State Fault Refusal :=
  s.commit do
    let i ← regSlot rs
    let j ← regSlot rt
    .ok (((s.setSlot i (s.slot j)).setSlot j (s.slot i)).setPc s.npc)

/-- `slowgravity rt, rs, imm` (R168). -/
def execSlowgravity (rt rs : Int) (imm : BitVec 16) (s : State) : Host.Outcome State Fault Refusal :=
  s.commit do
    let a ← s.readReg rs
    let d ← regSlot rt
    .ok ((s.setSlot d (subWrap a (sext16 imm))).setPc s.npc)

/-- `combo imm` (R169). -/
def execCombo (imm : BitVec 16) (s : State) : Host.Outcome State Fault Refusal :=
  s.commit (.ok ((s.mapBoard fun v => addWrap v (sext16 imm)).setPc s.npc))

end Sys2Proof.Machine
end

