-- ==== Sys2Proof/Machine/Dispatch.lean ====
section
/-! DEFINITION. Dispatch: one case per mnemonic (spec/40_dispatch.md R101). -/
namespace Sys2Proof.Machine

def exec (i : Instr) (s : State) : Host.Outcome State Fault Refusal :=
  match i with
  | .harddrop rt rs imm => Sys2Proof.Machine.execHarddrop rt rs imm s
  | .stack rd rs rt => Sys2Proof.Machine.execStack rd rs rt s
  | .garbage rd rs rt => Sys2Proof.Machine.execGarbage rd rs rt s
  | .attack rd rs rt => Sys2Proof.Machine.execAttack rd rs rt s
  | .delay rs rt => Sys2Proof.Machine.execDelay rs rt s
  | .next rt offset base => Sys2Proof.Machine.execNext rt offset base s
  | .hold rt offset base => Sys2Proof.Machine.execHold rt offset base s
  | .shift target => Sys2Proof.Machine.execShift target s
  | .lineclear rs rt offset => Sys2Proof.Machine.execLineclear rs rt offset s
  | .nonclear rs rt offset => Sys2Proof.Machine.execNonclear rs rt offset s
  | .ghostpiece rt rs imm => Sys2Proof.Machine.execGhostpiece rt rs imm s
  | .drop rd => Sys2Proof.Machine.execDrop rd s
  | .rotate rs rt => Sys2Proof.Machine.execRotate rs rt s
  | .slowgravity rt rs imm => Sys2Proof.Machine.execSlowgravity rt rs imm s
  | .combo imm => Sys2Proof.Machine.execCombo imm s
  | .downstack => Sys2Proof.Machine.execDownstack s
  | .topout => Sys2Proof.Machine.execTopout s
  | .allclear => Sys2Proof.Machine.execAllclear s
  | .tetris => Sys2Proof.Machine.execTetris s
  | .viewboard => Sys2Proof.Machine.execViewboard s

end Sys2Proof.Machine
end

