-- ==== Sys2Proof/Machine/Fetch.lean ====
section
/-! DEFINITION. What comes before a handler in the step of spec/40_dispatch.md R107: the latch (R109), the end of the
run (R110), the fetch (R106) and the decoder (R90). -/
namespace Sys2Proof.Machine

/-- What the front of a step finds. -/
inductive Fetched where
  /-- An instruction to dispatch. -/
  | instr (i : Instr)
  /-- A condition of the fetch or of the decoder. -/
  | raised (e : Raised)
  /-- No step from this state. -/
  | stop (f : Fault)
  deriving DecidableEq, Repr

/-- The front of `step` of R107 for a match table. -/
def fetchWith (T : List EncRow) (s : State) : Fetched :=
  match s.fault with
  | some r => .stop (.latched r)
  | none =>
    if s.endPc = some s.pc then .stop .runEnded
    else
      match s.memRead s.pc with
      | .error e => .raised e
      | .ok w =>
        match decodeWith T w with
        | .resolved i => .instr i
        | .illegal v => .raised ⟨.unknownInstruction, v⟩

/-- A state with a word stored where the fetch reads it: the loader's one word at `pc` (R106, R240). -/
def placeAtPc (s : State) (w : Word) : State := s.setMem s.pc w

end Sys2Proof.Machine
end

