-- ==== Sys2Proof/Machine/Step.lean ====
section
/-! DEFINITION. The step function (spec/40_dispatch.md R107). -/
namespace Sys2Proof.Machine

/-- `step` of R107 for a match table (R91). -/
def stepWith (T : List EncRow) (s : State) : Host.Outcome State Fault Refusal :=
  match fetchWith T s with
  | .instr i => exec i s
  | .raised e => .next (s.raise e)
  | .stop f => .fault f

/-- `step` of R107 with the match table of R85. -/
def step (s : State) : Host.Outcome State Fault Refusal := stepWith encTable s

/-- `s` with the instruction of the `nbits` bits `w` stored at `pc` (for the host; log 15). -/
def State.withFetchWord (s : State) (nbits w : Nat) : State := placeAtPc s (BitVec.ofNat 32 (w % 2 ^ nbits))

end Sys2Proof.Machine
end

