-- ==== Sys2Proof/Safety.lean ====
section
/-! DEFINITION. The terms claims use: ranges, what an instruction leaves unchanged, the order of register accesses, and
the invariants a step keeps. -/
namespace Sys2Proof.Machine

/-- An exact integer that a signed 32-bit Word holds (R9, R119). -/
def fitsWord (v : Int) : Prop := -2 ^ 31 ≤ v ∧ v ≤ 2 ^ 31 - 1

/-- An address that `MemRead` and `MemWrite` accept (R54, R55). -/
def State.accepts (s : State) (a : Word) : Prop := a.toNat % 4 = 0 ∧ ∃ r ∈ s.memMap, r.first.toNat ≤ a.toNat ∧ a.toNat ≤ r.last.toNat

/-- The state a raised condition leaves: the latch alone changed (R209). -/
def State.latch (s : State) (c : Condition) (info : Word) : State := { s with fault := some ⟨c, info, s.pc⟩ }

/-- The register indices of an instruction in the order they are accessed: reads in the order of its rule's
pseudocode, then the destination (R207, R212; log 10). -/
def accessOrder : Instr → List Int
  | .harddrop rt rs _ => [rs, rt]
  | .stack rd rs rt => [rs, rt, rd]
  | .garbage rd rs rt => [rs, rt, rd]
  | .attack rd rs rt => [rs, rt, rd]
  | .delay rs rt => [rs, rt]
  | .next rt _ base => [base, rt]
  | .hold rt _ base => [base, rt]
  | .shift _ => []
  | .lineclear rs rt _ => [rs, rt]
  | .nonclear rs rt _ => [rs, rt]
  | .ghostpiece rt rs _ => [rs, rt]
  | .drop rd => [rd]
  | .rotate rs rt => [rs, rt]
  | .slowgravity rt rs _ => [rs, rt]
  | .combo _ => []
  | .downstack => []
  | .topout => []
  | .allclear => []
  | .tetris => []
  | .viewboard => []

/-! ### Frames -/

/-- The indices of the ten board registers (R23). -/
def boardIndices : List Int := [8, 9, 10, 11, 12, 13, 14, 15, 24, 25]

/-- Every slot reads as before but for the indices named. -/
def slotsKeptBut (W : List Int) (s t : State) : Prop := ∀ j : Fin 34, (j.val : Int) ∉ W → t.slot j = s.slot j

/-- Every byte of memory reads as before. -/
def memoryKept (s t : State) : Prop := ∀ a : Nat, readByte t.mem a = readByte s.mem a

/-- The output history is as before. -/
def outputKept (s t : State) : Prop := t.out = s.out

/-- No draw is consumed. -/
def drawsKept (s t : State) : Prop := t.draws = s.draws ∧ t.drawCount = s.drawCount

/-- The run's parameters are as before (R51, R110). -/
def runKept (s t : State) : Prop := t.memMap = s.memMap ∧ t.endPc = s.endPc

/-- The latch is as before, or it took a condition at the instruction's own `pc`, which then stays (R209). -/
def latchKeptOrTaken (s t : State) : Prop :=
  t.fault = s.fault ∨ ∃ c info, t.fault = some ⟨c, info, s.pc⟩ ∧ t.pc = s.pc

/-! ### Invariants -/

/-- The word address of a byte address. -/
def wordOfByte (k : Nat) : Word := BitVec.ofNat 32 (k - k % 4)

/-- Every listed byte lies in a mapped word: the domain of `mem` is `MEM_MAP` (R51). -/
def State.memInMap (s : State) : Prop := ∀ c ∈ s.mem, inMap s.memMap (wordOfByte c.1) = true

/-- What the latch holds is what a decoded program can leave there: the `pc` it stopped at (R209), never
`InvalidRegister` (R26), the info of each condition (R204). -/
def State.latchOk (s : State) : Prop :=
  ∀ r, s.fault = some r → r.pc = s.pc ∧ r.cond ≠ .invalidRegister ∧
    (r.cond = .arithmeticOverflow → r.info = 0#32) ∧
    (r.cond = .unknownInstruction → decode r.info = .illegal r.info) ∧
    (r.cond = .addressError → ¬ s.accepts r.info)

end Sys2Proof.Machine
end

