-- ==== Sys2Proof/Certificates/Slice0/Obligations.lean ====
section
/-! DEFINITION. The statements for the provers, from the numbered rules of spec/. -/
open Sys2Proof Sys2Proof.Machine

/-! ### Encoding -/

/-- Every well-formed instruction decodes from its word (R76 to R84, R90): no bit of an encoding is dropped. -/
def Obligations.DecodeOfEncode : Prop :=
  ∀ i : Instr, i.wf = true → decode (encode i) = .resolved i

/-- Every word that decodes is the word of the instruction it decodes to (R87, R90): each instruction has one word. -/
def Obligations.EncodeOfDecode : Prop :=
  ∀ (w : Word) (i : Instr), decode w = .resolved i → i.wf = true ∧ encode i = w

/-- The round trip holds under every table of R91 whose masks are the class masks, not only R85's. -/
def Obligations.RoundTripUnderAnyTable : Prop :=
  ∀ T : List EncRow, tableOk T = true → (∀ r ∈ T, r.mask = classMask (classOf r.mnemonic)) →
    ∀ i : Instr, i.wf = true → ∃ w, encodeWith T i = some w ∧ decodeWith T w = .resolved i

/-- R74: where any two rows differ in some bit that both fix, no word matches two rows; the table of R85 is so. -/
def Obligations.NoWordMatchesTwoRows : Prop :=
  (∀ T : List EncRow, T.Pairwise (fun a b => (a.pattern ^^^ b.pattern) &&& a.mask &&& b.mask ≠ 0#32) →
    ∀ a ∈ T, ∀ b ∈ T, ∀ w : Word, w &&& a.mask = a.pattern → w &&& b.mask = b.pattern → a = b) ∧
  encTable.Pairwise (fun a b => (a.pattern ^^^ b.pattern) &&& a.mask &&& b.mask ≠ 0#32)

/-- One word of each family written out from R85's patterns. -/
def Obligations.DecodeOfSpecWords : Prop :=
  decode 0b00100001000010000000000000000100#32 = .resolved (.harddrop 8 8 4#16) ∧
  decode 0b00000000001000100001100000100010#32 = .resolved (.garbage 3 1 2) ∧
  decode 0b10001111101010011111111111111000#32 = .resolved (.next 9 0xFFF8#16 29) ∧
  decode 0b00010101000000001111111111111110#32 = .resolved (.nonclear 8 0 0xFFFE#16) ∧
  decode 0b01111100000000000100000000000001#32 = .resolved (.drop 8) ∧
  decode 0b01111100000000000000000000010011#32 = .resolved .tetris ∧
  decode 0x00000000#32 = .illegal 0x00000000#32 ∧ decode 0xFFFFFFFF#32 = .illegal 0xFFFFFFFF#32

/-- R86, R87: every word outside the map read by opcode is illegal: an unassigned opcode, an unassigned function, or a
1 in a field its class fixes to zero. -/
def Obligations.UnassignedEncodingsAreIllegal : Prop :=
  ∀ w : Word,
    (w.extractLsb' 26 6 ∉ [0x00#6, 0x02#6, 0x04#6, 0x05#6, 0x08#6, 0x18#6, 0x19#6, 0x1A#6, 0x1C#6, 0x1F#6, 0x23#6, 0x2B#6] →
      decode w = .illegal w) ∧
    (w.extractLsb' 26 6 = 0x00#6 → w.extractLsb' 0 11 ≠ 0x020#11 → w.extractLsb' 0 11 ≠ 0x022#11 →
      w.extractLsb' 0 16 ≠ 0x001A#16 → decode w = .illegal w) ∧
    (w.extractLsb' 26 6 = 0x1A#6 → w.extractLsb' 16 10 ≠ 0#10 → decode w = .illegal w) ∧
    (w.extractLsb' 26 6 = 0x1C#6 → w.extractLsb' 0 11 ≠ 0x002#11 → decode w = .illegal w) ∧
    (w.extractLsb' 26 6 = 0x1F#6 → w.extractLsb' 0 16 ≠ 0#16 →
      ¬ (w.extractLsb' 16 10 = 0#10 ∧ w.extractLsb' 0 11 = 0x001#11) →
      ¬ (w.extractLsb' 16 10 = 0#10 ∧ w.extractLsb' 0 16 ∈ [0x10#16, 0x11#16, 0x12#16, 0x13#16, 0x14#16]) →
      decode w = .illegal w)

/-! ### The step -/

/-- R107 (the spec's decisions D15, D18, D20): with no fault latched and the run not ended, where the word at `pc`
decodes to an instruction, the step is exactly that instruction; under any table too. -/
def Obligations.StepRunsTheDecodedInstruction : Prop :=
  ∀ (s : State) (i : Instr), s.fault = none → s.endPc ≠ some s.pc → s.accepts s.pc →
    (decode (readWord s.mem s.pc.toNat) = .resolved i → step s = exec i s) ∧
    (∀ T : List EncRow, decodeWith T (readWord s.mem s.pc.toNat) = .resolved i → stepWith T s = exec i s)

/-- R106, the spec's decision D18: a fetch whose `MemRead` raises faults with `AddressError(pc)` and nothing else
happens. -/
def Obligations.FetchFromBadPcRaisesAddressError : Prop :=
  ∀ s : State, s.fault = none → s.endPc ≠ some s.pc → ¬ s.accepts s.pc → step s = .next (s.latch .addressError s.pc)

/-- R87, R208 (the spec's decision D1): a fetched word that matches no row raises `UnknownInstruction(w)` and changes
nothing else. -/
def Obligations.IllegalWordRaisesUnknownInstruction : Prop :=
  ∀ (s : State) (w : Word), s.fault = none → s.endPc ≠ some s.pc → s.accepts s.pc → readWord s.mem s.pc.toNat = w →
    (∀ r ∈ encTable, w &&& r.mask ≠ r.pattern) → step s = .next (s.latch .unknownInstruction w)

/-- R109, the spec's decision D20: a state whose fault latch is set has no further step. -/
def Obligations.NoStepFromALatchedState : Prop :=
  ∀ (s : State) (r : FaultRecord), s.fault = some r → step s = .fault (.latched r)

/-- R110, the spec's decision D25: the run ends when, before a fetch, `pc == END_PC` and no fault is latched. -/
def Obligations.RunEndsAtEndPc : Prop :=
  ∀ s : State, s.fault = none → s.endPc = some s.pc → step s = .fault .runEnded

/-- R103, R209 (the latch is the spec's decision D20): whatever a step raises, the latch alone changed, `pc` stays at
the faulting instruction and the record names it; the same of one instruction. -/
def Obligations.FaultsArePrecise : Prop :=
  (∀ s t : State, step s = .next t → ∀ r, t.fault = some r → t = { s with fault := some r } ∧ r.pc = s.pc) ∧
  (∀ (i : Instr) (s t : State), s.fault = none → exec i s = .next t → ∀ r, t.fault = some r →
    t = { s with fault := some r } ∧ r.pc = s.pc)

/-! ### Arithmetic -/

/-- R120 with its overflow condition `add_ovf` in the form "the exact sum does not fit", which is the spec's own
inference in R119, "[derived: the equivalence, from rule R118]". -/
def Obligations.HarddropAddsImmediate : Prop :=
  (∀ w : Word, w &&& 0xFC000000#32 = 0x20000000#32 → decode w = .resolved (.harddrop (rtOf w) (rsOf w) (immOf w))) ∧
  ∀ (rt rs : Fin 34) (imm : BitVec 16) (s : State),
    (fitsWord ((s.slot rs).toInt + imm.toInt) → exec (.harddrop rt.val rs.val imm) s =
      .next { s with regs := s.regs.set rt.val (BitVec.ofInt 32 ((s.slot rs).toInt + imm.toInt)), pc := s.pc + 4#32 }) ∧
    (¬ fitsWord ((s.slot rs).toInt + imm.toInt) →
      exec (.harddrop rt.val rs.val imm) s = .next (s.latch .arithmeticOverflow 0#32))

/-- R121 with its overflow condition `add_ovf` in the form "the exact sum does not fit", which is the spec's own
inference in R119, "[derived: the equivalence, from rule R118]". -/
def Obligations.StackAddsRegisters : Prop :=
  (∀ w : Word, w &&& 0xFC0007FF#32 = 0x00000020#32 → decode w = .resolved (.stack (rdOf w) (rsOf w) (rtOf w))) ∧
  ∀ (rd rs rt : Fin 34) (s : State),
    (fitsWord ((s.slot rs).toInt + (s.slot rt).toInt) → exec (.stack rd.val rs.val rt.val) s =
      .next { s with regs := s.regs.set rd.val (s.slot rs + s.slot rt), pc := s.pc + 4#32 }) ∧
    (¬ fitsWord ((s.slot rs).toInt + (s.slot rt).toInt) →
      exec (.stack rd.val rs.val rt.val) s = .next (s.latch .arithmeticOverflow 0#32))

/-- R122; the order of the operands is the spec's decision D6. Its overflow condition `sub_ovf` stands in the form
"the exact difference does not fit", which is the spec's own inference in R119, "[derived: the equivalence, from rule
R118]". -/
def Obligations.GarbageSubtractsRegisters : Prop :=
  (∀ w : Word, w &&& 0xFC0007FF#32 = 0x00000022#32 → decode w = .resolved (.garbage (rdOf w) (rsOf w) (rtOf w))) ∧
  ∀ (rd rs rt : Fin 34) (s : State),
    (fitsWord ((s.slot rs).toInt - (s.slot rt).toInt) → exec (.garbage rd.val rs.val rt.val) s =
      .next { s with regs := s.regs.set rd.val (s.slot rs - s.slot rt), pc := s.pc + 4#32 }) ∧
    (¬ fitsWord ((s.slot rs).toInt - (s.slot rt).toInt) →
      exec (.garbage rd.val rs.val rt.val) s = .next (s.latch .arithmeticOverflow 0#32))

/-- R123, the three-operand reading the spec's decision D7: HIGH and LOW (slots 32 and 33) hold the exact product, and
`rd` its low word (unless `rd` is HIGH itself, whose last write is the high word, R104 and D29). -/
def Obligations.AttackMultiplies : Prop :=
  (∀ w : Word, w &&& 0xFC0007FF#32 = 0x70000002#32 → decode w = .resolved (.attack (rdOf w) (rsOf w) (rtOf w))) ∧
  ∀ (rd rs rt : Fin 34) (s : State), ∃ t, exec (.attack rd.val rs.val rt.val) s = .next t ∧
    (t.slot 32).toInt * 2 ^ 32 + (t.slot 33).toNat = (s.slot rs).toInt * (s.slot rt).toInt ∧
    (rd ≠ 32 → t.slot rd = t.slot 33) ∧ slotsKeptBut [(rd.val : Int), 32, 33] s t ∧
    t = { s with regs := t.regs, pc := s.pc + 4#32 }

/-- R124, the operand order and the remainder the spec's decisions D6 and D14: a divisor of 0 changes nothing but
`pc`; else HIGH holds the remainder and LOW the quotient rounded toward zero, both modulo 2^32. -/
def Obligations.DelayDivides : Prop :=
  (∀ w : Word, w &&& 0xFC00FFFF#32 = 0x0000001A#32 → decode w = .resolved (.delay (rsOf w) (rtOf w))) ∧
  ∀ (rs rt : Fin 34) (s : State),
    (s.slot rt = 0#32 → exec (.delay rs.val rt.val) s = .next { s with pc := s.pc + 4#32 }) ∧
    (s.slot rt ≠ 0#32 → ∃ q r : Int, (s.slot rs).toInt = q * (s.slot rt).toInt + r ∧
      r.natAbs < (s.slot rt).toInt.natAbs ∧ (r = 0 ∨ (r < 0 ↔ (s.slot rs).toInt < 0)) ∧
      exec (.delay rs.val rt.val) s = .next { s with
        regs := (s.regs.set 32 (BitVec.ofInt 32 r)).set 33 (BitVec.ofInt 32 q), pc := s.pc + 4#32 })

/-! ### Load and store -/

/-- R140. -/
def Obligations.NextLoadsAWord : Prop :=
  (∀ w : Word, w &&& 0xFC000000#32 = 0x8C000000#32 → decode w = .resolved (.next (rtOf w) (immOf w) (rsOf w))) ∧
  ∀ (rt base : Fin 34) (offset : BitVec 16) (s : State),
    (s.accepts (s.slot base + offset.signExtend 32) → exec (.next rt.val offset base.val) s = .next { s with
      regs := s.regs.set rt.val (readWord s.mem (s.slot base + offset.signExtend 32).toNat), pc := s.pc + 4#32 }) ∧
    (¬ s.accepts (s.slot base + offset.signExtend 32) → exec (.next rt.val offset base.val) s =
      .next (s.latch .addressError (s.slot base + offset.signExtend 32)))

/-- R141, R142 (D33), the byte order R58 (the spec's decision D17): the four bytes of the Word at the effective
address are the stored Word's, the lowest first; every other byte, every register and all else is as before. -/
def Obligations.HoldStoresAWord : Prop :=
  (∀ w : Word, w &&& 0xFC000000#32 = 0xAC000000#32 → decode w = .resolved (.hold (rtOf w) (immOf w) (rsOf w))) ∧
  ∀ (rt base : Fin 34) (offset : BitVec 16) (s : State), memWf s.mem = true →
    (s.accepts (s.slot base + offset.signExtend 32) → ∃ t, exec (.hold rt.val offset base.val) s = .next t ∧
      t = { s with mem := t.mem, pc := s.pc + 4#32 } ∧
      ∀ a : Nat, readByte t.mem a =
        if (s.slot base + offset.signExtend 32).toNat ≤ a ∧ a < (s.slot base + offset.signExtend 32).toNat + 4
        then (s.slot rt).extractLsb' (8 * (a - (s.slot base + offset.signExtend 32).toNat)) 8 else readByte s.mem a) ∧
    (¬ s.accepts (s.slot base + offset.signExtend 32) → exec (.hold rt.val offset base.val) s =
      .next (s.latch .addressError (s.slot base + offset.signExtend 32)))

/-! ### Control transfer -/

/-- R150; that the region is that of `npc` is the spec's decision D15. -/
def Obligations.ShiftJumps : Prop :=
  (∀ w : Word, w &&& 0xFC000000#32 = 0x08000000#32 → decode w = .resolved (.shift (targetOf w))) ∧
  ∀ (target : BitVec 26) (s : State), exec (.shift target) s =
    .next { s with pc := ((s.pc + 4#32) &&& 0xF0000000#32) ||| (target.setWidth 32 <<< 2) }

/-- R151, R153; that the base is `npc` and the sum wraps are the spec's decisions D15 and D35. -/
def Obligations.LineclearBranchesIfEqual : Prop :=
  (∀ w : Word, w &&& 0xFC000000#32 = 0x10000000#32 → decode w = .resolved (.lineclear (rsOf w) (rtOf w) (immOf w))) ∧
  ∀ (rs rt : Fin 34) (offset : BitVec 16) (s : State), exec (.lineclear rs.val rt.val offset) s =
    .next { s with pc := if s.slot rs = s.slot rt then s.pc + 4#32 + (offset.signExtend 32 <<< 2) else s.pc + 4#32 }

/-- R152, R153; as for R151, decisions D15 and D35. -/
def Obligations.NonclearBranchesIfNotEqual : Prop :=
  (∀ w : Word, w &&& 0xFC000000#32 = 0x14000000#32 → decode w = .resolved (.nonclear (rsOf w) (rtOf w) (immOf w))) ∧
  ∀ (rs rt : Fin 34) (offset : BitVec 16) (s : State), exec (.nonclear rs.val rt.val offset) s =
    .next { s with pc := if s.slot rs = s.slot rt then s.pc + 4#32 else s.pc + 4#32 + (offset.signExtend 32 <<< 2) }

/-! ### Themed register instructions -/

/-- R165; the event in place of a line of text is the spec's decision D22. -/
def Obligations.GhostpieceAddsAndEmits : Prop :=
  (∀ w : Word, w &&& 0xFC000000#32 = 0x60000000#32 → decode w = .resolved (.ghostpiece (rtOf w) (rsOf w) (immOf w))) ∧
  ∀ (rt rs : Fin 34) (imm : BitVec 16) (s : State), exec (.ghostpiece rt.val rs.val imm) s = .next { s with
    regs := s.regs.set rt.val (s.slot rs + imm.signExtend 32),
    out := s.out ++ [.ghostpiece (s.slot rs + imm.signExtend 32)], pc := s.pc + 4#32 }

/-- R166, R37 (the spec's decisions D12, D23): one draw in {1, 2, 3, 4} is consumed and added; where the environment
supplied it, it is the supplied 2-bit input plus 1. The unsupplied draw is a free value (log 6): the statement holds
for every one. -/
def Obligations.DropAddsADraw : Prop :=
  (∀ w : Word, w &&& 0xFFFF07FF#32 = 0x7C000001#32 → decode w = .resolved (.drop (rdOf w))) ∧
  ∀ (rd : Fin 34) (s : State), ∃ k : Int, 1 ≤ k ∧ k ≤ 4 ∧
    (∀ r rest, s.draws = r :: rest → k = r.toNat + 1) ∧
    exec (.drop rd.val) s = .next { s with
      regs := s.regs.set rd.val (BitVec.ofInt 32 ((s.slot rd).toInt + k)),
      draws := s.draws.tail, drawCount := s.drawCount + 1, pc := s.pc + 4#32 }

/-- R167. -/
def Obligations.RotateSwaps : Prop :=
  (∀ w : Word, w &&& 0xFC00FFFF#32 = 0x7C000000#32 → decode w = .resolved (.rotate (rsOf w) (rtOf w))) ∧
  ∀ (rs rt : Fin 34) (s : State), ∃ t, exec (.rotate rs.val rt.val) s = .next t ∧
    t.slot rs = s.slot rt ∧ t.slot rt = s.slot rs ∧ slotsKeptBut [(rs.val : Int), (rt.val : Int)] s t ∧
    t = { s with regs := t.regs, pc := s.pc + 4#32 }

/-- R168. -/
def Obligations.SlowgravitySubtractsImmediate : Prop :=
  (∀ w : Word, w &&& 0xFC000000#32 = 0x64000000#32 → decode w = .resolved (.slowgravity (rtOf w) (rsOf w) (immOf w))) ∧
  ∀ (rt rs : Fin 34) (imm : BitVec 16) (s : State), exec (.slowgravity rt.val rs.val imm) s = .next { s with
    regs := s.regs.set rt.val (s.slot rs - imm.signExtend 32), pc := s.pc + 4#32 }

/-- R169; that each cell wraps is the spec's decision D12. -/
def Obligations.ComboAddsToTheBoard : Prop :=
  (∀ w : Word, w &&& 0xFFFF0000#32 = 0x68000000#32 → decode w = .resolved (.combo (immOf w))) ∧
  ∀ (imm : BitVec 16) (s : State), ∃ t, exec (.combo imm) s = .next t ∧
    (∀ j ∈ ([8, 9, 10, 11, 12, 13, 14, 15, 24, 25] : List (Fin 34)), t.slot j = s.slot j + imm.signExtend 32) ∧
    slotsKeptBut boardIndices s t ∧ t = { s with regs := t.regs, pc := s.pc + 4#32 }

/-! ### Board and score -/

/-- R187; signed guards are the spec's decision D13, the wrapping score D12. -/
def Obligations.DownstackTransition : Prop :=
  decode 0x7C000010#32 = .resolved .downstack ∧
  ∀ s : State,
    ((∀ j ∈ boardSlots, 1 ≤ (s.slot j).toInt) → ∃ t, exec .downstack s = .next t ∧
      (∀ j ∈ boardSlots, t.slot j = s.slot j - 1#32) ∧ t.slot 16 = s.slot 16 + 1#32 ∧
      slotsKeptBut (16 :: boardIndices) s t ∧ t = { s with regs := t.regs, pc := s.pc + 4#32 }) ∧
    ((∃ j ∈ boardSlots, (s.slot j).toInt < 1) → exec .downstack s = .next { s with pc := s.pc + 4#32 })

/-- R188; signed guards are the spec's decision D13, the event D22, silence where the guard fails D32. -/
def Obligations.TopoutTransition : Prop :=
  decode 0x7C000011#32 = .resolved .topout ∧
  ∀ s : State,
    ((∃ j ∈ boardSlots, 20 ≤ (s.slot j).toInt) → ∃ t, exec .topout s = .next t ∧
      (∀ j ∈ boardSlots, t.slot j = 0#32) ∧ t.slot 16 = 0#32 ∧ slotsKeptBut (16 :: boardIndices) s t ∧
      t = { s with regs := t.regs, out := s.out ++ [.topout (s.slot 16)], pc := s.pc + 4#32 }) ∧
    ((∀ j ∈ boardSlots, (s.slot j).toInt < 20) → exec .topout s = .next { s with pc := s.pc + 4#32 })

/-- R189; the wrapping score is the spec's decision D12, the event D22, silence where the guard fails D32. -/
def Obligations.AllclearTransition : Prop :=
  decode 0x7C000012#32 = .resolved .allclear ∧
  ∀ s : State,
    ((∀ j ∈ boardSlots, s.slot j = 0#32) → exec .allclear s = .next { s with
      regs := s.regs.set 16 (s.slot 16 <<< 1), out := s.out ++ [.allclear], pc := s.pc + 4#32 }) ∧
    ((∃ j ∈ boardSlots, s.slot j ≠ 0#32) → exec .allclear s = .next { s with pc := s.pc + 4#32 })

/-- R190; signed guards are the spec's decision D13, the wrapping score D12, the event D22, D32. -/
def Obligations.TetrisTransition : Prop :=
  decode 0x7C000013#32 = .resolved .tetris ∧
  ∀ s : State,
    ((∀ j ∈ boardSlots, 4 ≤ (s.slot j).toInt) → ∃ t, exec .tetris s = .next t ∧
      (∀ j ∈ boardSlots, t.slot j = s.slot j - 4#32) ∧ t.slot 16 = s.slot 16 + 5#32 ∧
      slotsKeptBut (16 :: boardIndices) s t ∧
      t = { s with regs := t.regs, out := s.out ++ [.tetris], pc := s.pc + 4#32 }) ∧
    ((∃ j ∈ boardSlots, (s.slot j).toInt < 4) → exec .tetris s = .next { s with pc := s.pc + 4#32 })

/-- R191; the cell order and the event are the spec's decisions D11 and D22. -/
def Obligations.ViewboardEmitsTheBoard : Prop :=
  decode 0x7C000014#32 = .resolved .viewboard ∧
  ∀ s : State, exec .viewboard s = .next { s with
    out := s.out ++ [.viewboard [s.slot 8, s.slot 9, s.slot 10, s.slot 11, s.slot 12, s.slot 13, s.slot 14, s.slot 15,
      s.slot 24, s.slot 25]], pc := s.pc + 4#32 }

/-- R192: which guards can hold together, the spec's own inference "[derived: the implications, from rule R186]". -/
def Obligations.BoardGuardsRelate : Prop :=
  (∀ s : State, s.allGe4 = true → s.allGe1 = true) ∧
  (∀ s : State, s.allEq0 = true → s.allGe1 = false ∧ s.anyGe20 = false ∧ s.allGe4 = false) ∧
  (∃ s : State, s.anyGe20 = true ∧ s.allGe1 = true ∧ s.allGe4 = true) ∧
  (∃ s : State, s.anyGe20 = true ∧ s.allGe1 = false ∧ s.allGe4 = false)

/-- The property of `rotate` the source states (R167): applying it twice restores both registers, and every other. -/
def Obligations.RotateTwiceRestores : Prop :=
  ∀ (rs rt : Fin 34) (s t u : State), exec (.rotate rs.val rt.val) s = .next t →
    exec (.rotate rs.val rt.val) t = .next u → u.regs = s.regs

/-! ### Conditions -/

/-- R119: the two predicates on sign bits; that each says exactly that the exact result is outside the signed range is
the spec's own inference "[derived: the equivalence, from rule R118]". -/
def Obligations.OverflowPredicatesAreExact : Prop :=
  ∀ a b : Word,
    (addOvf a b = true ↔ a.getLsbD 31 = b.getLsbD 31 ∧ (a + b).getLsbD 31 ≠ a.getLsbD 31) ∧
    (subOvf a b = true ↔ a.getLsbD 31 ≠ b.getLsbD 31 ∧ (a - b).getLsbD 31 = b.getLsbD 31) ∧
    (addOvf a b = true ↔ ¬ fitsWord (a.toInt + b.toInt)) ∧
    (subOvf a b = true ↔ ¬ fitsWord (a.toInt - b.toInt))

/-- R207: the first register operand out of 0..33, in the order of access, raises `InvalidRegister` before any write;
32 and 33 are accepted; no decoded word has one out of 0..31. The order among several bad operands, and that an
aborted `drop` consumes no draw, are log 10 (DEDUCED). -/
def Obligations.InvalidRegisterAtTheFirstBadOperand : Prop :=
  (∀ (i : Instr) (s : State) (pre post : List Int) (r : Int), accessOrder i = pre ++ r :: post →
    (∀ q ∈ pre, 0 ≤ q ∧ q ≤ 33) → ¬ (0 ≤ r ∧ r ≤ 33) →
    exec i s = .next (s.latch .invalidRegister (BitVec.ofInt 32 r))) ∧
  (∀ (i : Instr) (s t : State), (∀ q ∈ accessOrder i, 0 ≤ q ∧ q ≤ 33) → s.fault = none → exec i s = .next t →
    ∀ f, t.fault = some f → f.cond ≠ .invalidRegister) ∧
  (∀ (w : Word) (i : Instr), decode w = .resolved i → ∀ q ∈ accessOrder i, 0 ≤ q ∧ q ≤ 31)

/-- R26, the spec's own inference "[derived: from rule R24, ...]": no instruction word raises `InvalidRegister`. -/
def Obligations.NoWordRaisesInvalidRegister : Prop :=
  ∀ s t : State, step s = .next t → ∀ f, t.fault = some f → f.cond ≠ .invalidRegister

/-- R205: an overflow is raised by `harddrop` and `stack` when `add_ovf` holds, by `garbage` when `sub_ovf` holds, and
by nothing else; the registers are as before. -/
def Obligations.OverflowOnlyFromTheCheckedThree : Prop :=
  (∀ (d a b : Fin 34) (imm : BitVec 16) (s : State),
    (addOvf (s.slot a) (imm.signExtend 32) = true →
      exec (.harddrop d.val a.val imm) s = .next (s.latch .arithmeticOverflow 0#32)) ∧
    (addOvf (s.slot a) (s.slot b) = true →
      exec (.stack d.val a.val b.val) s = .next (s.latch .arithmeticOverflow 0#32)) ∧
    (subOvf (s.slot a) (s.slot b) = true →
      exec (.garbage d.val a.val b.val) s = .next (s.latch .arithmeticOverflow 0#32))) ∧
  ∀ (i : Instr) (s t : State), s.fault = none → exec i s = .next t → ∀ f, t.fault = some f →
    f.cond = .arithmeticOverflow → t.regs = s.regs ∧
    ((∃ (d a : Fin 34) (imm : BitVec 16), i = .harddrop d.val a.val imm ∧ addOvf (s.slot a) (imm.signExtend 32) = true) ∨
     (∃ d a b : Fin 34, i = .stack d.val a.val b.val ∧ addOvf (s.slot a) (s.slot b) = true) ∨
     (∃ d a b : Fin 34, i = .garbage d.val a.val b.val ∧ subOvf (s.slot a) (s.slot b) = true))

/-- R206: an address that is not a multiple of 4 or not in the map raises `AddressError` with that address, alike for
both causes: from `MemRead` and `MemWrite`, so from `next` and `hold` on their effective address and from the fetch on
`pc`; nothing else raises it, no register and no byte changes. -/
def Obligations.AddressErrorFromBadAddresses : Prop :=
  (∀ (s : State) (a v : Word),
    (s.accepts a → (∃ w, s.memRead a = .ok w) ∧ ∃ u, s.memWrite a v = .ok u) ∧
    (¬ s.accepts a → s.memRead a = .error ⟨.addressError, a⟩ ∧ s.memWrite a v = .error ⟨.addressError, a⟩)) ∧
  (∀ (rt base : Fin 34) (offset : BitVec 16) (s : State), ¬ s.accepts (s.slot base + offset.signExtend 32) →
    exec (.next rt.val offset base.val) s = .next (s.latch .addressError (s.slot base + offset.signExtend 32)) ∧
    exec (.hold rt.val offset base.val) s = .next (s.latch .addressError (s.slot base + offset.signExtend 32))) ∧
  (∀ s : State, s.fault = none → s.endPc ≠ some s.pc → ¬ s.accepts s.pc →
    step s = .next (s.latch .addressError s.pc)) ∧
  (∀ (i : Instr) (s t : State), s.fault = none → exec i s = .next t → ∀ f, t.fault = some f → f.cond = .addressError →
    ¬ s.accepts f.info ∧ t.regs = s.regs ∧ t.mem = s.mem ∧
    ((∃ rt offset base, i = .next rt offset base) ∨ (∃ rt offset base, i = .hold rt offset base)))

/-! ### Frames -/

/-- `harddrop`, `stack`, `garbage`, `slowgravity`, `next`: only the destination register, `pc` and the latch can
change (R27, the spec's own inference from its instruction rules). -/
def Obligations.FrameOfOneDestination : Prop :=
  ∀ (s t : State) (i : Instr) (d : Int),
    ((∃ rs imm, i = .harddrop d rs imm) ∨ (∃ rs rt, i = .stack d rs rt) ∨ (∃ rs rt, i = .garbage d rs rt) ∨
      (∃ rs imm, i = .slowgravity d rs imm) ∨ (∃ offset base, i = .next d offset base)) →
    exec i s = .next t →
    slotsKeptBut [d] s t ∧ memoryKept s t ∧ outputKept s t ∧ drawsKept s t ∧ runKept s t ∧ latchKeptOrTaken s t

/-- `ghostpiece` and `drop`: the destination register, `pc` and the latch; one event for `ghostpiece`, one draw for
`drop` (R36, R166). An aborted `ghostpiece` emits nothing (R103); that an aborted `drop` consumes no draw is the
model's reading of R103 (log 10, DEDUCED). -/
def Obligations.FrameOfGhostpieceAndDrop : Prop :=
  (∀ (s t : State) (rt rs : Int) (imm : BitVec 16), exec (.ghostpiece rt rs imm) s = .next t →
    slotsKeptBut [rt] s t ∧ memoryKept s t ∧ drawsKept s t ∧ runKept s t ∧
    ((∃ e, t.out = s.out ++ [e] ∧ t.fault = s.fault) ∨ (outputKept s t ∧ latchKeptOrTaken s t))) ∧
  (∀ (s t : State) (rd : Int), exec (.drop rd) s = .next t →
    slotsKeptBut [rd] s t ∧ memoryKept s t ∧ outputKept s t ∧ runKept s t ∧
    ((t.draws = s.draws.tail ∧ t.drawCount = s.drawCount + 1 ∧ t.fault = s.fault) ∨
      (drawsKept s t ∧ latchKeptOrTaken s t)))

/-- `attack`: `rd`, HIGH and LOW; `delay`: HIGH and LOW only (R27). -/
def Obligations.FrameOfAttackAndDelay : Prop :=
  (∀ (s t : State) (rd rs rt : Int), exec (.attack rd rs rt) s = .next t →
    slotsKeptBut [rd, 32, 33] s t ∧ memoryKept s t ∧ outputKept s t ∧ drawsKept s t ∧ runKept s t ∧ latchKeptOrTaken s t) ∧
  (∀ (s t : State) (rs rt : Int), exec (.delay rs rt) s = .next t →
    slotsKeptBut [32, 33] s t ∧ memoryKept s t ∧ outputKept s t ∧ drawsKept s t ∧ runKept s t ∧ latchKeptOrTaken s t)

/-- `hold`: no register; no byte outside the Word at the effective address of the base register and the offset; no
byte at all where the base operand names no register (R27, R141). -/
def Obligations.FrameOfHold : Prop :=
  ∀ (s t : State) (rt base : Int) (offset : BitVec 16), exec (.hold rt offset base) s = .next t →
    slotsKeptBut [] s t ∧ outputKept s t ∧ drawsKept s t ∧ runKept s t ∧ latchKeptOrTaken s t ∧
    (∀ (j : Fin 34) (a : Nat), base = j.val →
      (a < (effectiveAddr (s.slot j) offset).toNat ∨ (effectiveAddr (s.slot j) offset).toNat + 3 < a) →
      readByte t.mem a = readByte s.mem a) ∧
    (¬ (0 ≤ base ∧ base ≤ 33) → memoryKept s t)

/-- `shift`, `lineclear`, `nonclear`: no register, no byte, no event; only `pc` and the latch (R27). -/
def Obligations.FrameOfControlTransfers : Prop :=
  ∀ (s t : State) (i : Instr),
    ((∃ target, i = .shift target) ∨ (∃ rs rt offset, i = .lineclear rs rt offset) ∨
      (∃ rs rt offset, i = .nonclear rs rt offset)) →
    exec i s = .next t →
    slotsKeptBut [] s t ∧ memoryKept s t ∧ outputKept s t ∧ drawsKept s t ∧ runKept s t ∧ latchKeptOrTaken s t

/-- `rotate`: its two registers; `combo`: the ten board registers (R27). -/
def Obligations.FrameOfRotateAndCombo : Prop :=
  (∀ (s t : State) (rs rt : Int), exec (.rotate rs rt) s = .next t →
    slotsKeptBut [rs, rt] s t ∧ memoryKept s t ∧ outputKept s t ∧ drawsKept s t ∧ runKept s t ∧ latchKeptOrTaken s t) ∧
  (∀ (s t : State) (imm : BitVec 16), exec (.combo imm) s = .next t →
    slotsKeptBut boardIndices s t ∧ memoryKept s t ∧ outputKept s t ∧ drawsKept s t ∧ runKept s t ∧ t.fault = s.fault)

/-- The five board instructions: board and score for three, score for `allclear`, no register for `viewboard`; no
byte, no draw, never the latch; `downstack` emits nothing (R27, R185). -/
def Obligations.FrameOfBoardInstructions : Prop :=
  ∀ s t : State,
    (∀ i ∈ [Instr.downstack, .topout, .allclear, .tetris, .viewboard], exec i s = .next t →
      slotsKeptBut (16 :: boardIndices) s t ∧ memoryKept s t ∧ drawsKept s t ∧ runKept s t ∧ t.fault = s.fault) ∧
    (exec .downstack s = .next t → outputKept s t) ∧
    (exec .allclear s = .next t → slotsKeptBut [16] s t) ∧
    (exec .viewboard s = .next t → slotsKeptBut [] s t)

/-! ### What every step keeps -/

/-- Every step keeps memory in its canonical form and within `MEM_MAP` (R51, R55). -/
def Obligations.StepKeepsMemoryCanonical : Prop :=
  ∀ s t : State, memWf s.mem = true → s.memInMap → step s = .next t → memWf t.mem = true ∧ t.memInMap

/-- R154, the spec's own inference "[derived: from rules R150 and R153]": if `pc` is a multiple of 4, every next `pc`
is. -/
def Obligations.StepKeepsPcAligned : Prop :=
  ∀ s t : State, s.pc.toNat % 4 = 0 → step s = .next t → t.pc.toNat % 4 = 0

/-- Every step keeps the latch what a decoded program can leave there (R26, R204, R209). -/
def Obligations.StepKeepsLatchOk : Prop :=
  ∀ s t : State, s.latchOk → step s = .next t → t.latchOk

/-- No step changes `MEM_MAP` or `END_PC` (R51, R110). -/
def Obligations.StepKeepsRunParameters : Prop :=
  ∀ s t : State, step s = .next t → t.memMap = s.memMap ∧ t.endPc = s.endPc

/-- R36: the history is append-only, one event an instruction at most, none by an instruction that faults. -/
def Obligations.OutputIsAppendOnly : Prop :=
  ∀ s t : State, step s = .next t → ∃ l, t.out = s.out ++ l ∧ l.length ≤ 1 ∧ (t.fault ≠ none → l = [])

/-- Only `hold` changes memory, only `attack` and `delay` change HIGH and LOW, only `drop` consumes a draw, for every
instruction of a decoded program (R27, R52, R166). -/
def Obligations.WhichInstructionsTouchWhat : Prop :=
  ∀ (i : Instr) (s t : State), i.wf = true → exec i s = .next t →
    ((∀ rt offset base, i ≠ .hold rt offset base) → t.mem = s.mem) ∧
    ((∀ rd rs rt, i ≠ .attack rd rs rt) → (∀ rs rt, i ≠ .delay rs rt) → t.slot 32 = s.slot 32 ∧ t.slot 33 = s.slot 33) ∧
    ((∀ rd, i ≠ .drop rd) → drawsKept s t)

/-! ### Memory -/

/-- R54, R55, R60: after an accepted store a load of the same address gives the Word stored and every other load is as
before, conditions included. -/
def Obligations.LoadSeesTheLastStore : Prop :=
  ∀ (s u : State) (a b v : Word), memWf s.mem = true → s.memWrite a v = .ok u →
    u.memRead b = if b = a then .ok v else s.memRead b

/-- R62: a Word stored at the next instruction's address is the instruction the next step runs. -/
def Obligations.StoreIsSeenByTheNextFetch : Prop :=
  ∀ (s t : State) (rt base : Fin 34) (offset : BitVec 16) (i : Instr), memWf s.mem = true → s.fault = none →
    s.accepts (s.pc + 4#32) → s.endPc ≠ some (s.pc + 4#32) → s.slot base + offset.signExtend 32 = s.pc + 4#32 →
    decode (s.slot rt) = .resolved i → exec (.hold rt.val offset base.val) s = .next t → step t = exec i t

/-- The canonical form is one: two canonical memories that read the same at every address are equal data (R51). -/
def Obligations.CanonicalMemoryIsUnique : Prop :=
  ∀ m n : Memory, memWf m = true → memWf n = true → (∀ a, readByte m a = readByte n a) → m = n

/-! ### Reset -/

/-- The machine right after reset (R235, R236, R239): latch `none`, history empty, no draw consumed, every slot at the
default 0; the invariants hold there; and with nothing loaded the first step raises `UnknownInstruction(0)`. The zero
slots are log 4, the `pc` log 3, the map log 2, the zero memory log 1: the model's choices. -/
def Obligations.ResetState : Prop :=
  State.reset.fault = none ∧ State.reset.out = [] ∧ State.reset.drawCount = 0 ∧
  (∀ j : Fin 34, State.reset.slot j = 0#32) ∧
  memWf State.reset.mem = true ∧ State.reset.memInMap ∧ State.reset.pc.toNat % 4 = 0 ∧ State.reset.latchOk ∧
  step State.reset = .next (State.reset.latch .unknownInstruction 0#32)

/-- R235 (the spec's decision D24): `rst` sets every slot to `REG_RESET`, `pc` to `PC_RESET`, the latch to `none` and
the history to empty, and does not initialise memory; then a machine with a fault latched runs again. That `rst` also
leaves `MEM_MAP` and `END_PC` alone is the model's choice (log 13, DESIGN CHOICE). -/
def Obligations.RstStartsARun : Prop :=
  ∀ (s : State) (p : RunParams),
    (∀ j : Fin 34, (s.assertRst p).slot j = p.regReset[j.val]) ∧ (s.assertRst p).pc = p.pcReset ∧
    (s.assertRst p).fault = none ∧ (s.assertRst p).out = [] ∧ memoryKept s (s.assertRst p) ∧ runKept s (s.assertRst p) ∧
    (s.endPc ≠ some p.pcReset → ∃ t, step (s.assertRst p) = .next t)
end

