-- ==== Sys2Proof/Laws/Decode.lean ====
section
/-! SUPPORT. Laws of the match table, the operand extractor and the encoder (R73 to R91). -/
namespace Sys2Proof

/-- Two different rows of an unambiguous table differ in a bit both fix (R74). -/
theorem tableUnambiguous_pairwise (T : List EncRow) (h : tableUnambiguous T = true) :
    T.Pairwise fun a b => rowsDiffer a b = true := by
  induction T with
  | nil => exact List.Pairwise.nil
  | cons r t ih =>
    simp only [tableUnambiguous, Bool.and_eq_true, List.all_eq_true] at h
    exact List.Pairwise.cons h.1 (ih h.2)

/-- Two rows that one word hits do not differ in a bit both fix (R73). -/
theorem rowsDiffer_of_hits (a b : EncRow) (w : Word) (ha : rowHits a w = true) (hb : rowHits b w = true) :
    rowsDiffer a b = false := by
  simp only [rowHits, beq_iff_eq] at ha hb
  have h : (a.pattern ^^^ b.pattern) &&& a.mask &&& b.mask = 0#32 := by
    rw [← ha, ← hb]
    apply BitVec.eq_of_getLsbD_eq
    intro i _
    simp only [BitVec.getLsbD_and, BitVec.getLsbD_xor, BitVec.getLsbD_zero]
    cases w.getLsbD i <;> cases a.mask.getLsbD i <;> cases b.mask.getLsbD i <;> rfl
  simp [rowsDiffer, h]

/-- In an unambiguous table the row that a word hits is the row `decode` finds. -/
theorem decodeWith_of_hit (T : List EncRow) (hT : tableUnambiguous T = true) (r : EncRow) (hr : r ∈ T) (w : Word)
    (hw : rowHits r w = true) : decodeWith T w = .resolved (resolve r.mnemonic w) := by
  have hp := tableUnambiguous_pairwise T hT
  unfold decodeWith
  have hf : T.find? (fun r => rowHits r w) = some r := by
    clear hT
    induction T with
    | nil => cases hr
    | cons a t ih =>
      rw [List.find?_cons]
      rcases List.mem_cons.mp hr with rfl | hr'
      · simp [hw]
      · have hd := List.rel_of_pairwise_cons hp hr'
        cases ha : rowHits a w with
        | true => rw [rowsDiffer_of_hits a r w ha hw] at hd; cases hd
        | false => exact ih hr' (List.Pairwise.of_cons hp)
  rw [hf]

/-- What a resolved answer says: some row of the table hits and its operands were extracted. -/
theorem decodeWith_resolved (T : List EncRow) (w : Word) (i : Instr) (h : decodeWith T w = .resolved i) :
    ∃ r ∈ T, rowHits r w = true ∧ i = resolve r.mnemonic w := by
  unfold decodeWith at h
  split at h
  · rename_i r hr
    exact ⟨r, List.mem_of_find?_eq_some hr, List.find?_some (p := fun r => rowHits r w) hr, by simpa using h.symm⟩
  · cases h

/-- A word that hits no row is illegal (R87). -/
theorem decodeWith_illegal (T : List EncRow) (w : Word) (h : ∀ r ∈ T, rowHits r w = false) :
    decodeWith T w = .illegal w := by
  unfold decodeWith
  rw [List.find?_eq_none.mpr (by simpa using h)]

theorem encTable_ok : tableOk encTable = true := by decide
theorem encTable_unambiguous : tableUnambiguous encTable = true := by decide

/-- A register field reads back as the operand it was made from (R72). -/
theorem regField_toNat (r : Int) (h : regFits r = true) : ((regField r).toNat : Int) = r := by
  simp only [regFits, decide_eq_true_eq] at h
  simp only [regField, BitVec.toNat_ofInt]
  omega

/-- An extracted register index fits its field (R26). -/
theorem regFits_toNat (v : BitVec 5) : regFits (v.toNat : Int) = true := by
  have := v.isLt
  simp only [regFits, decide_eq_true_eq]
  omega

/-- Every instruction the extractor builds is well formed (R26). -/
theorem resolve_wf (m : Mnemonic) (w : Word) : (resolve m w).wf = true := by
  cases m <;> simp only [resolve, Instr.wf, rsOf, rtOf, rdOf, regFits_toNat, Bool.and_self]

@[simp] theorem mnemonicOf_resolve (m : Mnemonic) (w : Word) : mnemonicOf (resolve m w) = m := by
  cases m <;> rfl

/-- Instructions a word decodes to are well formed (R26). -/
theorem decode_wf (w : Word) (i : Instr) (h : decode w = .resolved i) : i.wf = true := by
  obtain ⟨r, -, -, rfl⟩ := decodeWith_resolved encTable w i h
  exact resolve_wf _ w

/-- Each field leaves the bits outside it 0 (R72). -/
theorem putRs_outside (r : Int) : putRs r &&& 0xFC1FFFFF#32 = 0#32 := by
  unfold putRs
  generalize regField r = a
  apply BitVec.eq_of_getLsbD_eq
  intro i hi
  interval_cases i <;> simp

theorem putRt_outside (r : Int) : putRt r &&& 0xFFE0FFFF#32 = 0#32 := by
  unfold putRt
  generalize regField r = a
  apply BitVec.eq_of_getLsbD_eq
  intro i hi
  interval_cases i <;> simp

theorem putRd_outside (r : Int) : putRd r &&& 0xFFFF07FF#32 = 0#32 := by
  unfold putRd
  generalize regField r = a
  apply BitVec.eq_of_getLsbD_eq
  intro i hi
  interval_cases i <;> simp

theorem putImm_outside (v : BitVec 16) : putImm v &&& 0xFFFF0000#32 = 0#32 := by
  apply BitVec.eq_of_getLsbD_eq
  intro i hi
  interval_cases i <;> simp [putImm]

theorem putTarget_outside (v : BitVec 26) : putTarget v &&& 0xFC000000#32 = 0#32 := by
  apply BitVec.eq_of_getLsbD_eq
  intro i hi
  interval_cases i <;> simp [putTarget]

/-- What is 0 under a mask is 0 under any part of the mask. -/
theorem and_zero_of_part (x m n : Word) (h : x &&& m = 0#32) (hn : n &&& m = n) : x &&& n = 0#32 := by
  rw [← hn, BitVec.and_comm n m, ← BitVec.and_assoc, h, BitVec.zero_and]

/-- Masking distributes over the parts of a word. -/
theorem or_masked (x y m : Word) : (x ||| y) &&& m = (x &&& m) ||| (y &&& m) := by
  apply BitVec.eq_of_getLsbD_eq
  intro i _
  simp only [BitVec.getLsbD_and, BitVec.getLsbD_or, Bool.and_or_distrib_right]

/-- The operands of classes `I`, `M` and `B` leave `op` 0 (R80). -/
theorem layoutI_fixed (rs rt : Int) (imm : BitVec 16) : layoutI rs rt imm &&& 0xFC000000#32 = 0#32 := by
  rw [layoutI, or_masked, or_masked, and_zero_of_part _ _ _ (putRs_outside rs) (by decide),
    and_zero_of_part _ _ _ (putRt_outside rt) (by decide), and_zero_of_part _ _ _ (putImm_outside imm) (by decide)]
  rfl

/-- The operands of class `R3` leave `op`, `z` and `funct` 0 (R76). -/
theorem layoutR3_fixed (rs rt rd : Int) : layoutR3 rs rt rd &&& 0xFC0007FF#32 = 0#32 := by
  rw [layoutR3, or_masked, or_masked, and_zero_of_part _ _ _ (putRs_outside rs) (by decide),
    and_zero_of_part _ _ _ (putRt_outside rt) (by decide), and_zero_of_part _ _ _ (putRd_outside rd) (by decide)]
  rfl

/-- The operands of class `RR` leave all other bits 0 (R77). -/
theorem layoutRR_fixed (rs rt : Int) : layoutRR rs rt &&& 0xFC00FFFF#32 = 0#32 := by
  rw [layoutRR, or_masked, and_zero_of_part _ _ _ (putRs_outside rs) (by decide),
    and_zero_of_part _ _ _ (putRt_outside rt) (by decide)]
  rfl

/-- The operand bits of an instruction are 0 at its class's fixed bits (R75 to R84). -/
theorem operandBits_fixed (i : Instr) : operandBits i &&& classMask (classOf (mnemonicOf i)) = 0#32 := by
  cases i <;> simp only [operandBits, mnemonicOf, classOf, classMask, layoutI_fixed, layoutR3_fixed, layoutRR_fixed,
    putRd_outside, putImm_outside, putTarget_outside, BitVec.zero_and]

/-- The fields a mask fixes are those of the pattern in every word that hits (R73). -/
theorem field_of_hit (w p m : Word) (a n : Nat) (h : w &&& m = p) (hm : m.extractLsb' a n = BitVec.allOnes n) :
    w.extractLsb' a n = p.extractLsb' a n := by
  rw [← h, BitVec.extractLsb'_and, hm]
  simp

/-- A word that is 0 under a mask has a 0 in every field the mask covers. -/
theorem field_zero (x m : Word) (a n : Nat) (h : x &&& m = 0#32) (hm : m.extractLsb' a n = BitVec.allOnes n) :
    x.extractLsb' a n = 0#n := by
  have hx : (x &&& m).extractLsb' a n = 0#n := by rw [h]; simp
  rw [BitVec.extractLsb'_and, hm] at hx
  simpa using hx

/-- A pattern is 0 in every field its mask leaves to an operand (R73). -/
theorem pattern_field (p m : Word) (a n : Nat) (hp : p &&& m = p) (hm : m.extractLsb' a n = 0#n) :
    p.extractLsb' a n = 0#n := by
  rw [← hp, BitVec.extractLsb'_and, hm]
  simp

theorem putRs_field (r : Int) : (putRs r).extractLsb' 21 5 = regField r := by
  unfold putRs
  generalize regField r = a
  apply BitVec.eq_of_getLsbD_eq
  intro i hi
  interval_cases i <;> simp

theorem putRt_field (r : Int) : (putRt r).extractLsb' 16 5 = regField r := by
  unfold putRt
  generalize regField r = a
  apply BitVec.eq_of_getLsbD_eq
  intro i hi
  interval_cases i <;> simp

theorem putRd_field (r : Int) : (putRd r).extractLsb' 11 5 = regField r := by
  unfold putRd
  generalize regField r = a
  apply BitVec.eq_of_getLsbD_eq
  intro i hi
  interval_cases i <;> simp

theorem putImm_field (v : BitVec 16) : (putImm v).extractLsb' 0 16 = v := by
  apply BitVec.eq_of_getLsbD_eq
  intro i hi
  interval_cases i <;> simp [putImm]

theorem putTarget_field (v : BitVec 26) : (putTarget v).extractLsb' 0 26 = v := by
  apply BitVec.eq_of_getLsbD_eq
  intro i hi
  interval_cases i <;> simp [putTarget]

theorem layoutI_rs (rs rt : Int) (imm : BitVec 16) : (layoutI rs rt imm).extractLsb' 21 5 = regField rs := by
  rw [layoutI, BitVec.extractLsb'_or, BitVec.extractLsb'_or, putRs_field,
    field_zero _ _ _ _ (putRt_outside rt) (by decide),
    field_zero _ _ _ _ (putImm_outside imm) (by decide)]
  simp

theorem layoutI_rt (rs rt : Int) (imm : BitVec 16) : (layoutI rs rt imm).extractLsb' 16 5 = regField rt := by
  rw [layoutI, BitVec.extractLsb'_or, BitVec.extractLsb'_or, putRt_field,
    field_zero _ _ _ _ (putRs_outside rs) (by decide),
    field_zero _ _ _ _ (putImm_outside imm) (by decide)]
  simp

theorem layoutI_imm (rs rt : Int) (imm : BitVec 16) : (layoutI rs rt imm).extractLsb' 0 16 = imm := by
  rw [layoutI, BitVec.extractLsb'_or, BitVec.extractLsb'_or, putImm_field,
    field_zero _ _ _ _ (putRs_outside rs) (by decide),
    field_zero _ _ _ _ (putRt_outside rt) (by decide)]
  simp

theorem layoutR3_rs (rs rt rd : Int) : (layoutR3 rs rt rd).extractLsb' 21 5 = regField rs := by
  rw [layoutR3, BitVec.extractLsb'_or, BitVec.extractLsb'_or, putRs_field,
    field_zero _ _ _ _ (putRt_outside rt) (by decide),
    field_zero _ _ _ _ (putRd_outside rd) (by decide)]
  simp

theorem layoutR3_rt (rs rt rd : Int) : (layoutR3 rs rt rd).extractLsb' 16 5 = regField rt := by
  rw [layoutR3, BitVec.extractLsb'_or, BitVec.extractLsb'_or, putRt_field,
    field_zero _ _ _ _ (putRs_outside rs) (by decide),
    field_zero _ _ _ _ (putRd_outside rd) (by decide)]
  simp

theorem layoutR3_rd (rs rt rd : Int) : (layoutR3 rs rt rd).extractLsb' 11 5 = regField rd := by
  rw [layoutR3, BitVec.extractLsb'_or, BitVec.extractLsb'_or, putRd_field,
    field_zero _ _ _ _ (putRs_outside rs) (by decide),
    field_zero _ _ _ _ (putRt_outside rt) (by decide)]
  simp

theorem layoutRR_rs (rs rt : Int) : (layoutRR rs rt).extractLsb' 21 5 = regField rs := by
  rw [layoutRR, BitVec.extractLsb'_or, putRs_field,
    field_zero _ _ _ _ (putRt_outside rt) (by decide)]
  simp

theorem layoutRR_rt (rs rt : Int) : (layoutRR rs rt).extractLsb' 16 5 = regField rt := by
  rw [layoutRR, BitVec.extractLsb'_or, putRt_field,
    field_zero _ _ _ _ (putRs_outside rs) (by decide)]
  simp

/-- The extractor reads back the operands laid beside any pattern that is 0 outside its class's mask (R72 to R90). -/
theorem resolve_of_operandBits (i : Instr) (p : Word) (hw : i.wf = true)
    (hp : p &&& classMask (classOf (mnemonicOf i)) = p) : resolve (mnemonicOf i) (p ||| operandBits i) = i := by
  have f := fun a k (h : (classMask (classOf (mnemonicOf i))).extractLsb' a k = 0#k) => pattern_field p _ a k hp h
  cases i <;> simp only [Instr.wf, Bool.and_eq_true] at hw <;>
    simp only [mnemonicOf, classOf, classMask] at f <;>
    simp only [resolve, mnemonicOf, operandBits, rsOf, rtOf, rdOf, immOf, targetOf, BitVec.extractLsb'_or] <;>
    first
    | simp only [layoutI_rs, layoutI_rt, layoutI_imm, BitVec.zero_or, regField_toNat, hw, f 21 5 (by decide),
        f 16 5 (by decide), f 0 16 (by decide)]
    | simp only [layoutR3_rs, layoutR3_rt, layoutR3_rd, BitVec.zero_or, regField_toNat, hw, f 21 5 (by decide),
        f 16 5 (by decide), f 11 5 (by decide)]
    | simp only [layoutRR_rs, layoutRR_rt, BitVec.zero_or, regField_toNat, hw, f 21 5 (by decide), f 16 5 (by decide)]
    | simp only [putRd_field, BitVec.zero_or, regField_toNat, hw, f 11 5 (by decide)]
    | simp only [putImm_field, BitVec.zero_or, f 0 16 (by decide)]
    | simp only [putTarget_field, BitVec.zero_or, f 0 26 (by decide)]

end Sys2Proof
end

