-- ==== Sys2Proof/Laws/Memory.lean ====
section
/-! SUPPORT. The laws of byte and word memory: reads after writes, the frame of a write, the canonical form kept. -/
namespace Sys2Proof.Machine

/-- Below the first address of a canonical memory every byte is unlisted. -/
theorem readByte_below (m : Memory) : ∀ (lo a : Nat), memWfFrom lo m = true → a < lo → readByte m a = unlistedByte := by
  induction m with
  | nil => intros; rfl
  | cons c m ih =>
    obtain ⟨k, v⟩ := c
    intro lo a h ha
    simp only [memWfFrom, Bool.and_eq_true, decide_eq_true_eq] at h
    obtain ⟨⟨⟨hk, -⟩, -⟩, hm⟩ := h
    rw [readByte, if_neg (by omega)]
    exact ih (k + 1) a hm (by omega)

/-- A canonical form from an address on is one from any lower address on. -/
theorem memWfFrom_mono (m : Memory) (lo lo' : Nat) (h : memWfFrom lo m = true) (hl : lo' ≤ lo) : memWfFrom lo' m = true := by
  cases m with
  | nil => rfl
  | cons c m =>
    simp only [memWfFrom, Bool.and_eq_true, decide_eq_true_eq] at *
    exact ⟨⟨⟨by omega, h.1.1.2⟩, h.1.2⟩, h.2⟩

/-- Writing a byte keeps the canonical form. -/
theorem writeByte_wfFrom (m : Memory) : ∀ (lo a : Nat) (b : Byte), memWfFrom lo m = true → lo ≤ a → a < 2 ^ 32 →
    memWfFrom lo (writeByte m a b) = true := by
  induction m with
  | nil =>
    intro lo a b _ hl ha
    rw [writeByte]
    split
    · rfl
    · rename_i hb; simp [memWfFrom, hl, hb]; omega
  | cons c m ih =>
    obtain ⟨k, v⟩ := c
    intro lo a b h hl ha
    have h' := h
    simp only [memWfFrom, Bool.and_eq_true, decide_eq_true_eq] at h
    obtain ⟨⟨⟨hk, hk2⟩, hv⟩, hm⟩ := h
    rw [writeByte]
    split
    · rename_i hak
      split
      · exact h'
      · rename_i hb
        have hak' : a + 1 ≤ k := hak
        simp [memWfFrom, hl, hb, hak', hm, by simpa using hv]
        omega
    · split
      · rename_i hak
        subst hak
        split
        · exact memWfFrom_mono m _ _ hm (by omega)
        · rename_i hb; simp [memWfFrom, hl, hb, hm]; omega
      · have := ih (k + 1) a b hm (by omega) ha
        simp only [memWfFrom, Bool.and_eq_true, decide_eq_true_eq]
        exact ⟨⟨⟨hk, hk2⟩, hv⟩, this⟩

/-- Writing a byte keeps the canonical form of memory. -/
theorem writeByte_wf (m : Memory) (a : Nat) (b : Byte) (h : memWf m = true) (ha : a < 2 ^ 32) :
    memWf (writeByte m a b) = true :=
  writeByte_wfFrom m 0 a b h (Nat.zero_le a) ha

/-- A byte at another address reads as before, in any memory. -/
theorem readByte_writeByte_ne (m : Memory) (a c : Nat) (b : Byte) (h : c ≠ a) :
    readByte (writeByte m a b) c = readByte m c := by
  induction m with
  | nil => simp only [writeByte]; split <;> simp [readByte, Ne.symm h]
  | cons p m ih =>
    obtain ⟨k, v⟩ := p
    simp only [writeByte]
    split
    · split <;> simp [readByte, Ne.symm h]
    · split
      · rename_i hak
        subst hak
        split <;> simp [readByte, Ne.symm h]
      · simp [readByte, ih]

/-- The byte written reads back, in a canonical memory. -/
theorem readByte_writeByte_eq (m : Memory) (a : Nat) (b : Byte) :
    ∀ lo, memWfFrom lo m = true → readByte (writeByte m a b) a = b := by
  induction m with
  | nil => intro _ _; simp only [writeByte]; split <;> simp_all [readByte]
  | cons p m ih =>
    obtain ⟨k, v⟩ := p
    intro lo h
    have h' := h
    simp only [memWfFrom, Bool.and_eq_true, decide_eq_true_eq] at h
    obtain ⟨-, hm⟩ := h
    simp only [writeByte]
    split
    · rename_i hak
      split
      · rename_i hb
        have := readByte_below ((k, v) :: m) k a (by
          simp only [memWfFrom, Bool.and_eq_true, decide_eq_true_eq] at *; exact ⟨⟨⟨le_refl k, h'.1.1.2⟩, h'.1.2⟩, hm⟩) hak
        rw [this, hb]
      · simp [readByte]
    · split
      · rename_i hak
        subst hak
        split
        · rename_i hb
          rw [readByte_below m (a + 1) a hm (by omega), hb]
        · simp [readByte]
      · rename_i h1 h2
        rw [readByte, if_neg (by omega)]
        exact ih (k + 1) hm

/-- One law for a byte read after a byte write. -/
theorem readByte_writeByte (m : Memory) (a c : Nat) (b : Byte) (h : memWf m = true) :
    readByte (writeByte m a b) c = if c = a then b else readByte m c := by
  split
  · rename_i hc; subst hc; exact readByte_writeByte_eq m c b 0 h
  · rename_i hc; exact readByte_writeByte_ne m a c b hc

/-- Writing a Word keeps the canonical form of memory. -/
theorem writeWord_wf (m : Memory) (a : Nat) (v : Word) (h : memWf m = true) (ha : a + 3 < 2 ^ 32) :
    memWf (writeWord m a v) = true :=
  writeByte_wf _ _ _ (writeByte_wf _ _ _ (writeByte_wf _ _ _ (writeByte_wf _ _ _ h (by omega)) (by omega)) (by omega)) ha

/-- A byte outside the Word written reads as before, in any memory. -/
theorem readByte_writeWord_ne (m : Memory) (a c : Nat) (v : Word) (h : c < a ∨ a + 3 < c) :
    readByte (writeWord m a v) c = readByte m c := by
  unfold writeWord
  rw [readByte_writeByte_ne _ _ _ _ (by omega), readByte_writeByte_ne _ _ _ _ (by omega),
    readByte_writeByte_ne _ _ _ _ (by omega), readByte_writeByte_ne _ _ _ _ (by omega)]

/-- Byte `k` of the Word written is `v[8k+7 : 8k]` (R58). -/
theorem readByte_writeWord_eq (m : Memory) (a k : Nat) (v : Word) (h : memWf m = true) (ha : a + 3 < 2 ^ 32) (hk : k < 4) :
    readByte (writeWord m a v) (a + k) = v.extractLsb' (8 * k) 8 := by
  unfold writeWord
  have w0 := writeByte_wf m a (v.extractLsb' 0 8) h (by omega)
  have w1 := writeByte_wf _ (a + 1) (v.extractLsb' 8 8) w0 (by omega)
  have w2 := writeByte_wf _ (a + 2) (v.extractLsb' 16 8) w1 (by omega)
  rw [readByte_writeByte _ _ _ _ w2, readByte_writeByte _ _ _ _ w1, readByte_writeByte _ _ _ _ w0,
    readByte_writeByte _ _ _ _ h]
  have : k = 0 ∨ k = 1 ∨ k = 2 ∨ k = 3 := by omega
  rcases this with rfl | rfl | rfl | rfl <;> simp

/-- A Word put together from its four bytes, the first the lowest (R58). -/
theorem word_of_bytes (v : Word) :
    v.extractLsb' 24 8 ++ v.extractLsb' 16 8 ++ v.extractLsb' 8 8 ++ v.extractLsb' 0 8 = v := by
  apply BitVec.eq_of_getLsbD_eq
  intro i hi
  simp only [BitVec.getLsbD_append, BitVec.getLsbD_extractLsb']
  by_cases h0 : i < 8
  · simp [h0]
  · by_cases h1 : i < 16
    · simp [h0, show i - 8 < 8 by omega, show 8 + (i - 8) = i by omega]
    · by_cases h2 : i < 24
      · simp [h0, show ¬ i - 8 < 8 by omega, show i - 8 - 8 < 8 by omega, show 16 + (i - 8 - 8) = i by omega]
      · simp [h0, show ¬ i - 8 < 8 by omega, show ¬ i - 8 - 8 < 8 by omega, show i - 8 - 8 - 8 < 8 by omega,
          show 24 + (i - 8 - 8 - 8) = i by omega]

/-- The Word written reads back (R55, R54). -/
theorem readWord_writeWord_eq (m : Memory) (a : Nat) (v : Word) (h : memWf m = true) (ha : a + 3 < 2 ^ 32) :
    readWord (writeWord m a v) a = v := by
  have h0 := readByte_writeWord_eq m a 0 v h ha (by omega)
  have h1 := readByte_writeWord_eq m a 1 v h ha (by omega)
  have h2 := readByte_writeWord_eq m a 2 v h ha (by omega)
  have h3 := readByte_writeWord_eq m a 3 v h ha (by omega)
  unfold readWord
  rw [h1, h2, h3, show readByte (writeWord m a v) a = v.extractLsb' 0 8 from h0]
  exact word_of_bytes v

/-- A Word at another aligned address reads as before. -/
theorem readWord_writeWord_ne (m : Memory) (a c : Nat) (v : Word) (h : c + 3 < a ∨ a + 3 < c) :
    readWord (writeWord m a v) c = readWord m c := by
  unfold readWord
  rw [readByte_writeWord_ne _ _ _ _ (by omega), readByte_writeWord_ne _ _ _ _ (by omega),
    readByte_writeWord_ne _ _ _ _ (by omega), readByte_writeWord_ne _ _ _ _ (by omega)]

/-- Every pair listed after a byte write was listed before or is the one written. -/
theorem mem_writeByte (m : Memory) (a : Nat) (b : Byte) (c : Host.Cell) (h : c ∈ writeByte m a b) : c ∈ m ∨ c = (a, b) := by
  induction m with
  | nil =>
    simp only [writeByte] at h
    split at h <;> simp_all
  | cons p m ih =>
    obtain ⟨k, v⟩ := p
    simp only [writeByte] at h
    split at h
    · split at h <;> (simp_all; try tauto)
    · split at h
      · split at h <;> (simp_all; try tauto)
      · simp only [List.mem_cons] at h ⊢
        rcases h with h | h
        · exact .inl (.inl h)
        · rcases ih h with h | h <;> tauto

/-- Every pair listed after a Word write was listed before or lies in the Word written. -/
theorem mem_writeWord (m : Memory) (a : Nat) (v : Word) (c : Host.Cell) (h : c ∈ writeWord m a v) :
    c ∈ m ∨ (a ≤ c.1 ∧ c.1 ≤ a + 3) := by
  rcases mem_writeByte _ _ _ _ h with h | rfl
  · rcases mem_writeByte _ _ _ _ h with h | rfl
    · rcases mem_writeByte _ _ _ _ h with h | rfl
      · rcases mem_writeByte _ _ _ _ h with h | rfl
        · exact .inl h
        · right; simp
      · right; simp
    · right; simp
  · right; simp

end Sys2Proof.Machine
end

