-- ==== Sys2Proof/Laws/Words.lean ====
section
/-! SUPPORT. The wrapping arithmetic of the model as plain bit-vector arithmetic. -/
namespace Sys2Proof.Machine

/-- `npc` is `pc + 4` modulo 2^32 (R30). -/
theorem npc_eq (s : State) : s.npc = s.pc + 4#32 := by
  apply BitVec.eq_of_toNat_eq
  simp only [State.npc, wrap32, BitVec.toNat_ofInt, BitVec.toNat_add, BitVec.toNat_ofNat]
  have := s.pc.isLt
  omega

theorem addWrap_eq (a b : Word) : addWrap a b = a + b := by
  simp [addWrap, wrap32, BitVec.ofInt_add, BitVec.ofInt_toInt]

theorem subWrap_eq (a b : Word) : subWrap a b = a - b := by
  apply BitVec.eq_of_toInt_eq
  simp [subWrap, wrap32, BitVec.toInt_ofInt, BitVec.toInt_sub]

/-- The exact value of a wrapped integer where it fits a Word. -/
theorem wrap32_toInt (v : Int) (h : -2 ^ 31 ≤ v ∧ v ≤ 2 ^ 31 - 1) : (wrap32 v).toInt = v := by
  simp only [wrap32, BitVec.toInt_ofInt, Int.bmod_def]
  omega

theorem sext16_toInt (v : BitVec 16) : (sext16 v).toInt = v.toInt := by
  simp only [sext16]
  exact BitVec.toInt_signExtend_of_le (by decide)

/-- An integer congruent to another modulo 2^32 wraps to the same Word. -/
theorem wrap32_congr (v w : Int) (h : v % 2 ^ 32 = w % 2 ^ 32) : wrap32 v = wrap32 w := by
  apply BitVec.eq_of_toNat_eq
  simp only [wrap32, BitVec.toNat_ofInt]
  rw [show ((2 ^ 32 : Nat) : Int) = 2 ^ 32 by norm_num, h]

theorem wrap32_toNat (w : Word) : wrap32 (w.toNat : Int) = w := by
  apply BitVec.eq_of_toNat_eq
  have := w.isLt
  simp only [wrap32, BitVec.toNat_ofInt]
  omega

theorem wrap32_self_toInt (w : Word) : wrap32 w.toInt = w := BitVec.ofInt_toInt

theorem wrap32_add (v w : Int) : wrap32 (v + w) = wrap32 v + wrap32 w := BitVec.ofInt_add v w

theorem effectiveAddr_eq (b : Word) (o : BitVec 16) : effectiveAddr b o = b + o.signExtend 32 := by
  rw [effectiveAddr, wrap32_add, wrap32_toNat, ← sext16_toInt, wrap32_self_toInt, sext16]

theorem branchTarget_eq (n : Word) (o : BitVec 16) : branchTarget n o = n + (o.signExtend 32 <<< 2) := by
  rw [branchTarget, wrap32_add, wrap32_toNat, ← sext16_toInt]
  congr 1
  rw [sext16]
  generalize o.signExtend 32 = x
  apply BitVec.eq_of_toNat_eq
  simp only [wrap32, BitVec.toNat_ofInt, BitVec.toNat_shiftLeft, BitVec.toInt_eq_toNat_cond]
  have := x.isLt
  simp only [Nat.shiftLeft_eq]
  split <;> omega

/-- `addr[1:0] == 0b00` says that the address is a multiple of 4 (R54). -/
theorem aligned_iff (a : Word) : aligned a = true ↔ a.toNat % 4 = 0 := by
  simp only [aligned, beq_iff_eq, ← BitVec.toNat_inj, BitVec.extractLsb'_toNat, BitVec.toNat_ofNat, Nat.shiftRight_zero]

/-- Every jump target is a multiple of 4 (R154). -/
theorem jumpTarget_aligned (n : Word) (t : BitVec 26) : aligned (jumpTarget n t) = true := by
  rw [aligned_iff]
  simp only [jumpTarget, BitVec.toNat_append, Nat.shiftLeft_eq]
  have h : ∀ x : Nat, (x * 2 ^ 2 ||| (0#2).toNat) % 4 = 0 := by intro x; simp
  exact h _

/-- A branch target has the alignment of the `npc` it is relative to (R154). -/
theorem branchTarget_aligned (n : Word) (o : BitVec 16) (h : aligned n = true) : aligned (branchTarget n o) = true := by
  rw [aligned_iff] at *
  simp only [branchTarget, wrap32, BitVec.toNat_ofInt]
  omega

theorem npc_aligned (s : State) (h : aligned s.pc = true) : aligned s.npc = true := by
  rw [aligned_iff] at *
  have := s.pc.isLt
  simp only [State.npc, wrap32, BitVec.toNat_ofInt]
  omega

end Sys2Proof.Machine
end

