-- ==== Sys2Proof/Laws/Ops.lean ====
section
/-! SUPPORT. One lemma per shared operation: register access, the access check, reads, writes, commit. -/
namespace Sys2Proof.Machine

/-- An index in 0..33 names its slot (R24). -/
@[simp] theorem regSlot_fin (j : Fin 34) : regSlot (j.val : Int) = .ok j := by
  have h : (0 : Int) ≤ (j.val : Int) ∧ (j.val : Int) ≤ 33 := by omega
  simp [regSlot, h]

/-- An index outside 0..33 raises `InvalidRegister` with the index modulo 2^32 (R24, R204). -/
theorem regSlot_bad (i : Int) (h : ¬ (0 ≤ i ∧ i ≤ 33)) : regSlot i = .error ⟨.invalidRegister, wrap32 i⟩ := by
  simp only [regSlot, dif_neg h]

/-- Everything `regSlot` can answer. -/
theorem regSlot_cases (i : Int) :
    (∃ j : Fin 34, i = j.val ∧ regSlot i = .ok j) ∨
    (¬ (0 ≤ i ∧ i ≤ 33) ∧ regSlot i = .error ⟨.invalidRegister, wrap32 i⟩) := by
  by_cases h : 0 ≤ i ∧ i ≤ 33
  · left
    refine ⟨⟨i.toNat, by omega⟩, by simp; omega, ?_⟩
    simp [regSlot, h]
  · exact .inr ⟨h, regSlot_bad i h⟩

@[simp] theorem readReg_fin (s : State) (j : Fin 34) : s.readReg (j.val : Int) = .ok (s.slot j) := by
  simp [State.readReg]

theorem readReg_bad (s : State) (i : Int) (h : ¬ (0 ≤ i ∧ i ≤ 33)) :
    s.readReg i = .error ⟨.invalidRegister, wrap32 i⟩ := by
  simp [State.readReg, regSlot_bad i h]

/-- Everything a register read can answer (R24). -/
theorem readReg_cases (s : State) (i : Int) :
    (∃ j : Fin 34, i = j.val ∧ s.readReg i = .ok (s.slot j)) ∨
    (¬ (0 ≤ i ∧ i ≤ 33) ∧ s.readReg i = .error ⟨.invalidRegister, wrap32 i⟩) := by
  rcases regSlot_cases i with ⟨j, rfl, -⟩ | ⟨h, -⟩
  · exact .inl ⟨j, rfl, readReg_fin s j⟩
  · exact .inr ⟨h, readReg_bad s i h⟩

/-- An aligned mapped address passes the check (R54). -/
theorem checkAddr_ok (s : State) (a : Word) (h : aligned a = true) (hm : inMap s.memMap a = true) :
    s.checkAddr a = .ok () := by
  simp [State.checkAddr, h, hm]

/-- Any other address raises `AddressError` with the address (R54, R204). -/
theorem checkAddr_bad (s : State) (a : Word) (h : ¬ (aligned a = true ∧ inMap s.memMap a = true)) :
    s.checkAddr a = .error ⟨.addressError, a⟩ := by
  unfold State.checkAddr
  by_cases ha : aligned a = true
  · simp_all
  · simp [ha]

/-- Everything the check can answer (R54, R55). -/
theorem checkAddr_cases (s : State) (a : Word) :
    (aligned a = true ∧ inMap s.memMap a = true ∧ s.checkAddr a = .ok ()) ∨
    (¬ (aligned a = true ∧ inMap s.memMap a = true) ∧ s.checkAddr a = .error ⟨.addressError, a⟩) := by
  by_cases h : aligned a = true ∧ inMap s.memMap a = true
  · exact .inl ⟨h.1, h.2, checkAddr_ok s a h.1 h.2⟩
  · exact .inr ⟨h, checkAddr_bad s a h⟩

/-- Everything a load can answer (R54). -/
theorem memRead_cases (s : State) (a : Word) :
    (aligned a = true ∧ inMap s.memMap a = true ∧ s.memRead a = .ok (readWord s.mem a.toNat)) ∨
    (¬ (aligned a = true ∧ inMap s.memMap a = true) ∧ s.memRead a = .error ⟨.addressError, a⟩) := by
  rcases checkAddr_cases s a with ⟨h, hm, hc⟩ | ⟨h, hc⟩
  · exact .inl ⟨h, hm, by rw [State.memRead, hc]⟩
  · exact .inr ⟨h, by rw [State.memRead, hc]⟩

/-- Everything a store can answer (R55). -/
theorem memWrite_cases (s : State) (a v : Word) :
    (aligned a = true ∧ inMap s.memMap a = true ∧ s.memWrite a v = .ok (s.setMem a v)) ∨
    (¬ (aligned a = true ∧ inMap s.memMap a = true) ∧ s.memWrite a v = .error ⟨.addressError, a⟩) := by
  rcases checkAddr_cases s a with ⟨h, hm, hc⟩ | ⟨h, hc⟩
  · exact .inl ⟨h, hm, by rw [State.memWrite, hc]⟩
  · exact .inr ⟨h, by rw [State.memWrite, hc]⟩

/-- The four bytes of an aligned Word lie below 2^32 (R50). -/
theorem aligned_room (a : Word) (h : aligned a = true) : a.toNat + 3 < 2 ^ 32 := by
  rw [aligned_iff] at h
  have := a.isLt
  omega

@[simp] theorem commit_ok (s t : State) : s.commit (.ok t) = .next t := rfl
@[simp] theorem commit_error (s : State) (e : Raised) : s.commit (.error e) = .next (s.raise e) := rfl

/-- The end of an instruction is always a next state: the committed one or the raised one (R103). -/
theorem commit_next (s t : State) (r : Except Raised State) (h : s.commit r = .next t) :
    r = .ok t ∨ ∃ e, r = .error e ∧ t = s.raise e := by
  cases r with
  | ok u => left; simpa using h
  | error e => right; exact ⟨e, rfl, by simpa using h.symm⟩

/-- Binding a success goes on. -/
@[simp] theorem except_ok_bind {α β : Type} (a : α) (f : α → Except Raised β) : (Except.ok a >>= f) = f a := rfl
/-- Binding a raised condition stops with it. -/
@[simp] theorem except_error_bind {α β : Type} (e : Raised) (f : α → Except Raised β) :
    ((Except.error e : Except Raised α) >>= f) = .error e := rfl

end Sys2Proof.Machine
end

