-- ==== Sys2Proof/Laws/Flags.lean ====
section
/-! SUPPORT. The board guards of R186 as statements about the ten slots. -/
namespace Sys2Proof.Machine

theorem allGe1_iff (s : State) : s.allGe1 = true ↔ ∀ k ∈ boardSlots, 1 ≤ (s.slot k).toInt := by
  simp [State.allGe1, State.board]

theorem anyGe20_iff (s : State) : s.anyGe20 = true ↔ ∃ k ∈ boardSlots, 20 ≤ (s.slot k).toInt := by
  simp [State.anyGe20, State.board]

theorem allEq0_iff (s : State) : s.allEq0 = true ↔ ∀ k ∈ boardSlots, s.slot k = 0#32 := by
  simp [State.allEq0, State.board]

theorem allGe4_iff (s : State) : s.allGe4 = true ↔ ∀ k ∈ boardSlots, 4 ≤ (s.slot k).toInt := by
  simp [State.allGe4, State.board]

end Sys2Proof.Machine
end

