-- ==== Sys2Proof/Laws/State.lean ====
section
/-! SUPPORT. One lemma per field per update of the state, and what each update does to a slot and to `npc`. -/
namespace Sys2Proof.Machine

@[simp] theorem State.setSlot_regs (s : State) (j : Fin 34) (v : Word) : (s.setSlot j v).regs = s.regs.set j.val v := rfl
@[simp] theorem State.setSlot_pc (s : State) (j : Fin 34) (v : Word) : (s.setSlot j v).pc = s.pc := rfl
@[simp] theorem State.setSlot_mem (s : State) (j : Fin 34) (v : Word) : (s.setSlot j v).mem = s.mem := rfl
@[simp] theorem State.setSlot_fault (s : State) (j : Fin 34) (v : Word) : (s.setSlot j v).fault = s.fault := rfl
@[simp] theorem State.setSlot_out (s : State) (j : Fin 34) (v : Word) : (s.setSlot j v).out = s.out := rfl
@[simp] theorem State.setSlot_memMap (s : State) (j : Fin 34) (v : Word) : (s.setSlot j v).memMap = s.memMap := rfl
@[simp] theorem State.setSlot_endPc (s : State) (j : Fin 34) (v : Word) : (s.setSlot j v).endPc = s.endPc := rfl
@[simp] theorem State.setSlot_draws (s : State) (j : Fin 34) (v : Word) : (s.setSlot j v).draws = s.draws := rfl
@[simp] theorem State.setSlot_drawCount (s : State) (j : Fin 34) (v : Word) : (s.setSlot j v).drawCount = s.drawCount := rfl
@[simp] theorem State.setSlot_npc (s : State) (j : Fin 34) (v : Word) : (s.setSlot j v).npc = s.npc := rfl

@[simp] theorem State.mapBoard_pc (s : State) (f : Word → Word) : (s.mapBoard f).pc = s.pc := rfl
@[simp] theorem State.mapBoard_mem (s : State) (f : Word → Word) : (s.mapBoard f).mem = s.mem := rfl
@[simp] theorem State.mapBoard_fault (s : State) (f : Word → Word) : (s.mapBoard f).fault = s.fault := rfl
@[simp] theorem State.mapBoard_out (s : State) (f : Word → Word) : (s.mapBoard f).out = s.out := rfl
@[simp] theorem State.mapBoard_memMap (s : State) (f : Word → Word) : (s.mapBoard f).memMap = s.memMap := rfl
@[simp] theorem State.mapBoard_endPc (s : State) (f : Word → Word) : (s.mapBoard f).endPc = s.endPc := rfl
@[simp] theorem State.mapBoard_draws (s : State) (f : Word → Word) : (s.mapBoard f).draws = s.draws := rfl
@[simp] theorem State.mapBoard_drawCount (s : State) (f : Word → Word) : (s.mapBoard f).drawCount = s.drawCount := rfl
@[simp] theorem State.mapBoard_npc (s : State) (f : Word → Word) : (s.mapBoard f).npc = s.npc := rfl

@[simp] theorem State.setPc_regs (s : State) (a : Word) : (s.setPc a).regs = s.regs := rfl
@[simp] theorem State.setPc_pc (s : State) (a : Word) : (s.setPc a).pc = a := rfl
@[simp] theorem State.setPc_mem (s : State) (a : Word) : (s.setPc a).mem = s.mem := rfl
@[simp] theorem State.setPc_fault (s : State) (a : Word) : (s.setPc a).fault = s.fault := rfl
@[simp] theorem State.setPc_out (s : State) (a : Word) : (s.setPc a).out = s.out := rfl
@[simp] theorem State.setPc_memMap (s : State) (a : Word) : (s.setPc a).memMap = s.memMap := rfl
@[simp] theorem State.setPc_endPc (s : State) (a : Word) : (s.setPc a).endPc = s.endPc := rfl
@[simp] theorem State.setPc_draws (s : State) (a : Word) : (s.setPc a).draws = s.draws := rfl
@[simp] theorem State.setPc_drawCount (s : State) (a : Word) : (s.setPc a).drawCount = s.drawCount := rfl
@[simp] theorem State.setPc_slot (s : State) (a : Word) (k : Fin 34) : (s.setPc a).slot k = s.slot k := rfl

@[simp] theorem State.setMem_regs (s : State) (a v : Word) : (s.setMem a v).regs = s.regs := rfl
@[simp] theorem State.setMem_pc (s : State) (a v : Word) : (s.setMem a v).pc = s.pc := rfl
@[simp] theorem State.setMem_mem (s : State) (a v : Word) : (s.setMem a v).mem = writeWord s.mem a.toNat v := rfl
@[simp] theorem State.setMem_fault (s : State) (a v : Word) : (s.setMem a v).fault = s.fault := rfl
@[simp] theorem State.setMem_out (s : State) (a v : Word) : (s.setMem a v).out = s.out := rfl
@[simp] theorem State.setMem_memMap (s : State) (a v : Word) : (s.setMem a v).memMap = s.memMap := rfl
@[simp] theorem State.setMem_endPc (s : State) (a v : Word) : (s.setMem a v).endPc = s.endPc := rfl
@[simp] theorem State.setMem_draws (s : State) (a v : Word) : (s.setMem a v).draws = s.draws := rfl
@[simp] theorem State.setMem_drawCount (s : State) (a v : Word) : (s.setMem a v).drawCount = s.drawCount := rfl
@[simp] theorem State.setMem_slot (s : State) (a v : Word) (k : Fin 34) : (s.setMem a v).slot k = s.slot k := rfl
@[simp] theorem State.setMem_npc (s : State) (a v : Word) : (s.setMem a v).npc = s.npc := rfl

@[simp] theorem State.emit_regs (s : State) (e : Event) : (s.emit e).regs = s.regs := rfl
@[simp] theorem State.emit_pc (s : State) (e : Event) : (s.emit e).pc = s.pc := rfl
@[simp] theorem State.emit_mem (s : State) (e : Event) : (s.emit e).mem = s.mem := rfl
@[simp] theorem State.emit_fault (s : State) (e : Event) : (s.emit e).fault = s.fault := rfl
@[simp] theorem State.emit_out (s : State) (e : Event) : (s.emit e).out = s.out ++ [e] := rfl
@[simp] theorem State.emit_memMap (s : State) (e : Event) : (s.emit e).memMap = s.memMap := rfl
@[simp] theorem State.emit_endPc (s : State) (e : Event) : (s.emit e).endPc = s.endPc := rfl
@[simp] theorem State.emit_draws (s : State) (e : Event) : (s.emit e).draws = s.draws := rfl
@[simp] theorem State.emit_drawCount (s : State) (e : Event) : (s.emit e).drawCount = s.drawCount := rfl
@[simp] theorem State.emit_slot (s : State) (e : Event) (k : Fin 34) : (s.emit e).slot k = s.slot k := rfl
@[simp] theorem State.emit_npc (s : State) (e : Event) : (s.emit e).npc = s.npc := rfl

@[simp] theorem State.consumeDraw_regs (s : State) : s.consumeDraw.regs = s.regs := rfl
@[simp] theorem State.consumeDraw_pc (s : State) : s.consumeDraw.pc = s.pc := rfl
@[simp] theorem State.consumeDraw_mem (s : State) : s.consumeDraw.mem = s.mem := rfl
@[simp] theorem State.consumeDraw_fault (s : State) : s.consumeDraw.fault = s.fault := rfl
@[simp] theorem State.consumeDraw_out (s : State) : s.consumeDraw.out = s.out := rfl
@[simp] theorem State.consumeDraw_memMap (s : State) : s.consumeDraw.memMap = s.memMap := rfl
@[simp] theorem State.consumeDraw_endPc (s : State) : s.consumeDraw.endPc = s.endPc := rfl
@[simp] theorem State.consumeDraw_draws (s : State) : s.consumeDraw.draws = s.draws.tail := rfl
@[simp] theorem State.consumeDraw_drawCount (s : State) : s.consumeDraw.drawCount = s.drawCount + 1 := rfl
@[simp] theorem State.consumeDraw_slot (s : State) (k : Fin 34) : s.consumeDraw.slot k = s.slot k := rfl
@[simp] theorem State.consumeDraw_npc (s : State) : s.consumeDraw.npc = s.npc := rfl

@[simp] theorem State.raise_regs (s : State) (e : Raised) : (s.raise e).regs = s.regs := rfl
@[simp] theorem State.raise_pc (s : State) (e : Raised) : (s.raise e).pc = s.pc := rfl
@[simp] theorem State.raise_mem (s : State) (e : Raised) : (s.raise e).mem = s.mem := rfl
@[simp] theorem State.raise_fault (s : State) (e : Raised) : (s.raise e).fault = some ⟨e.cond, e.info, s.pc⟩ := rfl
@[simp] theorem State.raise_out (s : State) (e : Raised) : (s.raise e).out = s.out := rfl
@[simp] theorem State.raise_memMap (s : State) (e : Raised) : (s.raise e).memMap = s.memMap := rfl
@[simp] theorem State.raise_endPc (s : State) (e : Raised) : (s.raise e).endPc = s.endPc := rfl
@[simp] theorem State.raise_draws (s : State) (e : Raised) : (s.raise e).draws = s.draws := rfl
@[simp] theorem State.raise_drawCount (s : State) (e : Raised) : (s.raise e).drawCount = s.drawCount := rfl
@[simp] theorem State.raise_slot (s : State) (e : Raised) (k : Fin 34) : (s.raise e).slot k = s.slot k := rfl
@[simp] theorem State.raise_npc (s : State) (e : Raised) : (s.raise e).npc = s.npc := rfl

@[simp] theorem State.assertRst_regs (s : State) (p : RunParams) : (s.assertRst p).regs = p.regReset := rfl
@[simp] theorem State.assertRst_pc (s : State) (p : RunParams) : (s.assertRst p).pc = p.pcReset := rfl
@[simp] theorem State.assertRst_mem (s : State) (p : RunParams) : (s.assertRst p).mem = s.mem := rfl
@[simp] theorem State.assertRst_fault (s : State) (p : RunParams) : (s.assertRst p).fault = none := rfl
@[simp] theorem State.assertRst_out (s : State) (p : RunParams) : (s.assertRst p).out = [] := rfl
@[simp] theorem State.assertRst_memMap (s : State) (p : RunParams) : (s.assertRst p).memMap = s.memMap := rfl
@[simp] theorem State.assertRst_endPc (s : State) (p : RunParams) : (s.assertRst p).endPc = s.endPc := rfl
@[simp] theorem State.assertRst_draws (s : State) (p : RunParams) : (s.assertRst p).draws = s.draws := rfl
@[simp] theorem State.assertRst_drawCount (s : State) (p : RunParams) : (s.assertRst p).drawCount = s.drawCount := rfl

/-- A slot after a write: the value written at the slot written, the old value elsewhere (R25). -/
@[simp] theorem State.setSlot_slot (s : State) (j k : Fin 34) (v : Word) :
    (s.setSlot j v).slot k = if j = k then v else s.slot k := by
  simp [State.setSlot, State.slot, Vector.getElem_set, Fin.ext_iff]

/-- A slot after a board update: the function applied at the ten cells, the old value elsewhere (R23). -/
@[simp] theorem State.mapBoard_slot (s : State) (f : Word → Word) (k : Fin 34) :
    (s.mapBoard f).slot k = if k ∈ boardSlots then f (s.slot k) else s.slot k := by
  by_cases hk : k ∈ boardSlots
  · rw [if_pos hk]
    simp only [boardSlots, List.mem_cons, List.not_mem_nil, or_false] at hk
    rcases hk with rfl | rfl | rfl | rfl | rfl | rfl | rfl | rfl | rfl | rfl <;>
      simp [State.mapBoard, boardSlots]
  · rw [if_neg hk]
    simp only [boardSlots, List.mem_cons, List.not_mem_nil, or_false, not_or] at hk
    simp [State.mapBoard, boardSlots, hk, Ne.symm hk.1, eq_comm]

@[simp] theorem State.assertRst_slot (s : State) (p : RunParams) (k : Fin 34) :
    (s.assertRst p).slot k = p.regReset[k.val] := rfl

/-- Two register files with the same slots are equal. -/
theorem regs_ext (s t : State) (h : ∀ k : Fin 34, t.slot k = s.slot k) : t.regs = s.regs := by
  apply Vector.ext
  intro i hi
  exact h ⟨i, hi⟩

/-- The board view reads only the ten board slots (R23). -/
theorem board_congr (s t : State) (h : ∀ k ∈ boardSlots, t.slot k = s.slot k) : t.board = s.board :=
  List.map_congr_left h

end Sys2Proof.Machine
end

