-- ==== Sys2Proof/Laws/Exec.lean ====
section
/-! SUPPORT. Each instruction on slots in range as one equation, and once for all instructions what a next state can
be: the raised state or a committed one of known footprint. -/
namespace Sys2Proof.Machine

theorem exec_harddrop (rt rs : Fin 34) (imm : BitVec 16) (s : State) :
    exec (.harddrop rt.val rs.val imm) s =
      s.commit (s.checkedWrite rt (addOvf (s.slot rs) (sext16 imm)) (addWrap (s.slot rs) (sext16 imm))) := by
  simp [exec, execHarddrop]

theorem exec_stack (rd rs rt : Fin 34) (s : State) :
    exec (.stack rd.val rs.val rt.val) s =
      s.commit (s.checkedWrite rd (addOvf (s.slot rs) (s.slot rt)) (addWrap (s.slot rs) (s.slot rt))) := by
  simp [exec, execStack]

theorem exec_garbage (rd rs rt : Fin 34) (s : State) :
    exec (.garbage rd.val rs.val rt.val) s =
      s.commit (s.checkedWrite rd (subOvf (s.slot rs) (s.slot rt)) (subWrap (s.slot rs) (s.slot rt))) := by
  simp [exec, execGarbage]

theorem exec_attack (rd rs rt : Fin 34) (s : State) :
    exec (.attack rd.val rs.val rt.val) s =
      .next ((((s.setSlot rd ((product (s.slot rs) (s.slot rt)).extractLsb' 0 32)).setSlot highSlot
        ((product (s.slot rs) (s.slot rt)).extractLsb' 32 32)).setSlot lowSlot
        ((product (s.slot rs) (s.slot rt)).extractLsb' 0 32)).setPc s.npc) := by
  simp [exec, execAttack]

theorem exec_delay (rs rt : Fin 34) (s : State) :
    exec (.delay rs.val rt.val) s =
      if s.slot rt = 0#32 then .next (s.setPc s.npc)
      else .next (((s.setSlot highSlot (wrap32 (remainder (s.slot rs) (s.slot rt)))).setSlot lowSlot
        (wrap32 (quotient (s.slot rs) (s.slot rt)))).setPc s.npc) := by
  simp only [exec, execDelay, readReg_fin, except_ok_bind]
  split <;> rfl

theorem exec_next (rt : Fin 34) (offset : BitVec 16) (base : Fin 34) (s : State) :
    exec (.next rt.val offset base.val) s =
      s.commit (s.memRead (effectiveAddr (s.slot base) offset) >>= fun v => .ok ((s.setSlot rt v).setPc s.npc)) := by
  simp [exec, execNext]

theorem exec_hold (rt : Fin 34) (offset : BitVec 16) (base : Fin 34) (s : State) :
    exec (.hold rt.val offset base.val) s =
      s.commit (s.memWrite (effectiveAddr (s.slot base) offset) (s.slot rt) >>= fun t => .ok (t.setPc s.npc)) := by
  simp [exec, execHold]

theorem exec_shift (target : BitVec 26) (s : State) :
    exec (.shift target) s = .next (s.setPc (jumpTarget s.npc target)) := rfl

theorem exec_lineclear (rs rt : Fin 34) (offset : BitVec 16) (s : State) :
    exec (.lineclear rs.val rt.val offset) s =
      .next (s.setPc (if s.slot rs = s.slot rt then branchTarget s.npc offset else s.npc)) := by
  simp [exec, execLineclear]

theorem exec_nonclear (rs rt : Fin 34) (offset : BitVec 16) (s : State) :
    exec (.nonclear rs.val rt.val offset) s =
      .next (s.setPc (if s.slot rs ≠ s.slot rt then branchTarget s.npc offset else s.npc)) := by
  simp [exec, execNonclear]

theorem exec_ghostpiece (rt rs : Fin 34) (imm : BitVec 16) (s : State) :
    exec (.ghostpiece rt.val rs.val imm) s =
      .next (((s.setSlot rt (addWrap (s.slot rs) (sext16 imm))).emit
        (.ghostpiece (addWrap (s.slot rs) (sext16 imm)))).setPc s.npc) := by
  simp [exec, execGhostpiece]

theorem exec_drop (rd : Fin 34) (s : State) :
    exec (.drop rd.val) s =
      .next ((s.consumeDraw.setSlot rd (wrap32 ((s.slot rd).toInt + s.draw))).setPc s.npc) := by
  simp [exec, execDrop]

theorem exec_rotate (rs rt : Fin 34) (s : State) :
    exec (.rotate rs.val rt.val) s =
      .next (((s.setSlot rs (s.slot rt)).setSlot rt (s.slot rs)).setPc s.npc) := by
  simp [exec, execRotate]

theorem exec_slowgravity (rt rs : Fin 34) (imm : BitVec 16) (s : State) :
    exec (.slowgravity rt.val rs.val imm) s =
      .next ((s.setSlot rt (subWrap (s.slot rs) (sext16 imm))).setPc s.npc) := by
  simp [exec, execSlowgravity]

theorem exec_combo (imm : BitVec 16) (s : State) :
    exec (.combo imm) s = .next ((s.mapBoard fun v => addWrap v (sext16 imm)).setPc s.npc) := rfl

theorem exec_downstack (s : State) :
    exec .downstack s = s.guarded s.allGe1 ((s.mapBoard fun v => subWrap v 1#32).setSlot scoreSlot
      (addWrap s.score 1#32)) := rfl

theorem exec_topout (s : State) :
    exec .topout s = s.guarded s.anyGe20 (((s.mapBoard fun _ => 0#32).setSlot scoreSlot 0#32).emit (.topout s.score)) := rfl

theorem exec_allclear (s : State) :
    exec .allclear s = s.guarded s.allEq0 ((s.setSlot scoreSlot (wrap32 (2 * s.score.toInt))).emit .allclear) := rfl

theorem exec_tetris (s : State) :
    exec .tetris s = s.guarded s.allGe4 (((s.mapBoard fun v => subWrap v 4#32).setSlot scoreSlot
      (addWrap s.score 5#32)).emit .tetris) := rfl

theorem exec_viewboard (s : State) :
    exec .viewboard s = .next ((s.emit (.viewboard s.board)).setPc s.npc) := rfl

/-- What a committed instruction can have done besides its slots: the places of `pc`, at most one aligned mapped Word
stored, at most one event. -/
structure Footprint (s t : State) : Prop where
  fault  : t.fault = s.fault
  memMap : t.memMap = s.memMap
  endPc  : t.endPc = s.endPc
  mem    : t.mem = s.mem ∨ ∃ a v, aligned a = true ∧ inMap s.memMap a = true ∧ t.mem = writeWord s.mem a.toNat v
  out    : t.out = s.out ∨ ∃ e, t.out = s.out ++ [e]
  pc     : t.pc = s.npc ∨ (∃ g, t.pc = jumpTarget s.npc g) ∨ ∃ o, t.pc = branchTarget s.npc o

/-- What an instruction can raise: an index out of range, an overflow of the three checked instructions, an address
that no access takes (R204, R205). -/
def MayRaise (i : Instr) (s : State) (e : Raised) : Prop :=
  (∃ r ∈ accessOrder i, ¬ (0 ≤ r ∧ r ≤ 33) ∧ e = ⟨.invalidRegister, wrap32 r⟩) ∨
  (e = ⟨.arithmeticOverflow, 0#32⟩ ∧ mnemonicOf i ∈ [Mnemonic.harddrop, .stack, .garbage]) ∨
  (e.cond = .addressError ∧ ¬ (aligned e.info = true ∧ inMap s.memMap e.info = true) ∧ mnemonicOf i ∈ [Mnemonic.next, .hold])

theorem checkedWrite_cases (s t : State) (d : Fin 34) (ovf : Bool) (v : Word) (h : s.commit (s.checkedWrite d ovf v) = .next t) :
    (ovf = true ∧ t = s.raise ⟨.arithmeticOverflow, 0#32⟩) ∨ (ovf = false ∧ t = (s.setSlot d v).setPc s.npc) := by
  unfold State.checkedWrite at h
  cases ovf <;> simp_all

theorem guarded_cases (s u t : State) (g : Bool) (h : s.guarded g u = .next t) :
    (g = true ∧ t = u.setPc s.npc) ∨ (g = false ∧ t = s.setPc s.npc) := by
  unfold State.guarded at h
  cases g <;> simp_all

/-- The committed end of an instruction that only writes slots and `pc`, and emits at most one event. -/
theorem footprint_npc (s u : State) (hf : u.fault = s.fault) (hm : u.memMap = s.memMap) (he : u.endPc = s.endPc)
    (hmem : u.mem = s.mem) (ho : u.out = s.out ∨ ∃ e, u.out = s.out ++ [e]) : Footprint s (u.setPc s.npc) :=
  ⟨hf, hm, he, .inl hmem, ho, .inl rfl⟩

theorem guarded_footprint (s u t : State) (g : Bool) (h : s.guarded g u = .next t) (hf : u.fault = s.fault)
    (hm : u.memMap = s.memMap) (he : u.endPc = s.endPc) (hmem : u.mem = s.mem)
    (ho : u.out = s.out ∨ ∃ e, u.out = s.out ++ [e]) : Footprint s t := by
  rcases guarded_cases s u t g h with ⟨-, rfl⟩ | ⟨-, rfl⟩
  · exact footprint_npc s u hf hm he hmem ho
  · exact footprint_npc s s rfl rfl rfl rfl (.inl rfl)

/-- An instruction always answers a next state (R111). -/
theorem exec_total (i : Instr) (s : State) : ∃ t, exec i s = .next t := by
  have c : ∀ r : Except Raised State, ∃ t, s.commit r = .next t := fun r => by cases r <;> exact ⟨_, rfl⟩
  cases i <;> first | exact c _ | exact ⟨_, rfl⟩

/-- What an instruction did: it raised or it committed. -/
theorem exec_cases (i : Instr) (s t : State) (h : exec i s = .next t) :
    (∃ e, t = s.raise e ∧ MayRaise i s e) ∨ Footprint s t := by
  cases i with
  | harddrop rt rs imm =>
    rcases regSlot_cases rs with ⟨a, rfl, -⟩ | ⟨hb, -⟩
    · rcases regSlot_cases rt with ⟨d, rfl, -⟩ | ⟨hb, hd⟩
      · rw [exec_harddrop] at h
        rcases checkedWrite_cases _ _ _ _ _ h with ⟨-, rfl⟩ | ⟨-, rfl⟩
        · exact .inl ⟨_, rfl, .inr (.inl ⟨rfl, by simp [mnemonicOf]⟩)⟩
        · exact .inr (footprint_npc s _ rfl rfl rfl rfl (.inl rfl))
      · simp [exec, execHarddrop, hd] at h
        exact .inl ⟨_, h.symm, .inl ⟨rt, by simp [accessOrder], hb, rfl⟩⟩
    · simp [exec, execHarddrop, readReg_bad s rs hb] at h
      exact .inl ⟨_, h.symm, .inl ⟨rs, by simp [accessOrder], hb, rfl⟩⟩
  | stack rd rs rt =>
    rcases regSlot_cases rs with ⟨a, rfl, -⟩ | ⟨hb, -⟩
    · rcases regSlot_cases rt with ⟨b, rfl, -⟩ | ⟨hb, -⟩
      · rcases regSlot_cases rd with ⟨d, rfl, -⟩ | ⟨hb, hd⟩
        · rw [exec_stack] at h
          rcases checkedWrite_cases _ _ _ _ _ h with ⟨-, rfl⟩ | ⟨-, rfl⟩
          · exact .inl ⟨_, rfl, .inr (.inl ⟨rfl, by simp [mnemonicOf]⟩)⟩
          · exact .inr (footprint_npc s _ rfl rfl rfl rfl (.inl rfl))
        · simp [exec, execStack, hd] at h
          exact .inl ⟨_, h.symm, .inl ⟨rd, by simp [accessOrder], hb, rfl⟩⟩
      · simp [exec, execStack, readReg_bad s rt hb] at h
        exact .inl ⟨_, h.symm, .inl ⟨rt, by simp [accessOrder], hb, rfl⟩⟩
    · simp [exec, execStack, readReg_bad s rs hb] at h
      exact .inl ⟨_, h.symm, .inl ⟨rs, by simp [accessOrder], hb, rfl⟩⟩
  | garbage rd rs rt =>
    rcases regSlot_cases rs with ⟨a, rfl, -⟩ | ⟨hb, -⟩
    · rcases regSlot_cases rt with ⟨b, rfl, -⟩ | ⟨hb, -⟩
      · rcases regSlot_cases rd with ⟨d, rfl, -⟩ | ⟨hb, hd⟩
        · rw [exec_garbage] at h
          rcases checkedWrite_cases _ _ _ _ _ h with ⟨-, rfl⟩ | ⟨-, rfl⟩
          · exact .inl ⟨_, rfl, .inr (.inl ⟨rfl, by simp [mnemonicOf]⟩)⟩
          · exact .inr (footprint_npc s _ rfl rfl rfl rfl (.inl rfl))
        · simp [exec, execGarbage, hd] at h
          exact .inl ⟨_, h.symm, .inl ⟨rd, by simp [accessOrder], hb, rfl⟩⟩
      · simp [exec, execGarbage, readReg_bad s rt hb] at h
        exact .inl ⟨_, h.symm, .inl ⟨rt, by simp [accessOrder], hb, rfl⟩⟩
    · simp [exec, execGarbage, readReg_bad s rs hb] at h
      exact .inl ⟨_, h.symm, .inl ⟨rs, by simp [accessOrder], hb, rfl⟩⟩
  | attack rd rs rt =>
    rcases regSlot_cases rs with ⟨a, rfl, -⟩ | ⟨hb, -⟩
    · rcases regSlot_cases rt with ⟨b, rfl, -⟩ | ⟨hb, -⟩
      · rcases regSlot_cases rd with ⟨d, rfl, -⟩ | ⟨hb, hd⟩
        · rw [exec_attack] at h
          cases h
          exact .inr (footprint_npc s _ rfl rfl rfl rfl (.inl rfl))
        · simp [exec, execAttack, hd] at h
          exact .inl ⟨_, h.symm, .inl ⟨rd, by simp [accessOrder], hb, rfl⟩⟩
      · simp [exec, execAttack, readReg_bad s rt hb] at h
        exact .inl ⟨_, h.symm, .inl ⟨rt, by simp [accessOrder], hb, rfl⟩⟩
    · simp [exec, execAttack, readReg_bad s rs hb] at h
      exact .inl ⟨_, h.symm, .inl ⟨rs, by simp [accessOrder], hb, rfl⟩⟩
  | delay rs rt =>
    rcases regSlot_cases rs with ⟨a, rfl, -⟩ | ⟨hb, -⟩
    · rcases regSlot_cases rt with ⟨b, rfl, -⟩ | ⟨hb, -⟩
      · rw [exec_delay] at h
        split at h <;> cases h
        · exact .inr (footprint_npc s s rfl rfl rfl rfl (.inl rfl))
        · exact .inr (footprint_npc s _ rfl rfl rfl rfl (.inl rfl))
      · simp [exec, execDelay, readReg_bad s rt hb] at h
        exact .inl ⟨_, h.symm, .inl ⟨rt, by simp [accessOrder], hb, rfl⟩⟩
    · simp [exec, execDelay, readReg_bad s rs hb] at h
      exact .inl ⟨_, h.symm, .inl ⟨rs, by simp [accessOrder], hb, rfl⟩⟩
  | next rt offset base =>
    rcases regSlot_cases base with ⟨b, rfl, -⟩ | ⟨hb, -⟩
    · rcases regSlot_cases rt with ⟨d, rfl, -⟩ | ⟨hb, hd⟩
      · rw [exec_next] at h
        rcases memRead_cases s (effectiveAddr (s.slot b) offset) with ⟨-, -, hr⟩ | ⟨hn, hr⟩
        · simp [hr] at h
          subst h
          exact .inr (footprint_npc s _ rfl rfl rfl rfl (.inl rfl))
        · simp [hr] at h
          exact .inl ⟨_, h.symm, .inr (.inr ⟨rfl, hn, by simp [mnemonicOf]⟩)⟩
      · simp [exec, execNext, hd] at h
        exact .inl ⟨_, h.symm, .inl ⟨rt, by simp [accessOrder], hb, rfl⟩⟩
    · simp [exec, execNext, readReg_bad s base hb] at h
      exact .inl ⟨_, h.symm, .inl ⟨base, by simp [accessOrder], hb, rfl⟩⟩
  | hold rt offset base =>
    rcases regSlot_cases base with ⟨b, rfl, -⟩ | ⟨hb, -⟩
    · rcases regSlot_cases rt with ⟨d, rfl, -⟩ | ⟨hb, -⟩
      · rw [exec_hold] at h
        rcases memWrite_cases s (effectiveAddr (s.slot b) offset) (s.slot d) with ⟨ha, hm, hr⟩ | ⟨hn, hr⟩
        · simp [hr] at h
          subst h
          exact .inr ⟨rfl, rfl, rfl, .inr ⟨_, _, ha, hm, rfl⟩, .inl rfl, .inl rfl⟩
        · simp [hr] at h
          exact .inl ⟨_, h.symm, .inr (.inr ⟨rfl, hn, by simp [mnemonicOf]⟩)⟩
      · simp [exec, execHold, readReg_bad s rt hb] at h
        exact .inl ⟨_, h.symm, .inl ⟨rt, by simp [accessOrder], hb, rfl⟩⟩
    · simp [exec, execHold, readReg_bad s base hb] at h
      exact .inl ⟨_, h.symm, .inl ⟨base, by simp [accessOrder], hb, rfl⟩⟩
  | shift target =>
    cases h
    exact .inr ⟨rfl, rfl, rfl, .inl rfl, .inl rfl, .inr (.inl ⟨_, rfl⟩)⟩
  | lineclear rs rt offset =>
    rcases regSlot_cases rs with ⟨a, rfl, -⟩ | ⟨hb, -⟩
    · rcases regSlot_cases rt with ⟨b, rfl, -⟩ | ⟨hb, -⟩
      · rw [exec_lineclear] at h
        split at h <;> cases h
        · exact .inr ⟨rfl, rfl, rfl, .inl rfl, .inl rfl, .inr (.inr ⟨_, rfl⟩)⟩
        · exact .inr (footprint_npc s s rfl rfl rfl rfl (.inl rfl))
      · simp [exec, execLineclear, readReg_bad s rt hb] at h
        exact .inl ⟨_, h.symm, .inl ⟨rt, by simp [accessOrder], hb, rfl⟩⟩
    · simp [exec, execLineclear, readReg_bad s rs hb] at h
      exact .inl ⟨_, h.symm, .inl ⟨rs, by simp [accessOrder], hb, rfl⟩⟩
  | nonclear rs rt offset =>
    rcases regSlot_cases rs with ⟨a, rfl, -⟩ | ⟨hb, -⟩
    · rcases regSlot_cases rt with ⟨b, rfl, -⟩ | ⟨hb, -⟩
      · rw [exec_nonclear] at h
        split at h <;> cases h
        · exact .inr ⟨rfl, rfl, rfl, .inl rfl, .inl rfl, .inr (.inr ⟨_, rfl⟩)⟩
        · exact .inr (footprint_npc s s rfl rfl rfl rfl (.inl rfl))
      · simp [exec, execNonclear, readReg_bad s rt hb] at h
        exact .inl ⟨_, h.symm, .inl ⟨rt, by simp [accessOrder], hb, rfl⟩⟩
    · simp [exec, execNonclear, readReg_bad s rs hb] at h
      exact .inl ⟨_, h.symm, .inl ⟨rs, by simp [accessOrder], hb, rfl⟩⟩
  | ghostpiece rt rs imm =>
    rcases regSlot_cases rs with ⟨a, rfl, -⟩ | ⟨hb, -⟩
    · rcases regSlot_cases rt with ⟨d, rfl, -⟩ | ⟨hb, hd⟩
      · rw [exec_ghostpiece] at h
        cases h
        exact .inr (footprint_npc s _ rfl rfl rfl rfl (.inr ⟨_, rfl⟩))
      · simp [exec, execGhostpiece, hd] at h
        exact .inl ⟨_, h.symm, .inl ⟨rt, by simp [accessOrder], hb, rfl⟩⟩
    · simp [exec, execGhostpiece, readReg_bad s rs hb] at h
      exact .inl ⟨_, h.symm, .inl ⟨rs, by simp [accessOrder], hb, rfl⟩⟩
  | drop rd =>
    rcases regSlot_cases rd with ⟨d, rfl, -⟩ | ⟨hb, hd⟩
    · rw [exec_drop] at h
      cases h
      exact .inr (footprint_npc s _ rfl rfl rfl rfl (.inl rfl))
    · simp [exec, execDrop, hd] at h
      exact .inl ⟨_, h.symm, .inl ⟨rd, by simp [accessOrder], hb, rfl⟩⟩
  | rotate rs rt =>
    rcases regSlot_cases rs with ⟨a, rfl, ha⟩ | ⟨hb, hd⟩
    · rcases regSlot_cases rt with ⟨d, rfl, -⟩ | ⟨hb, hd⟩
      · rw [exec_rotate] at h
        cases h
        exact .inr (footprint_npc s _ rfl rfl rfl rfl (.inl rfl))
      · simp [exec, execRotate, hd] at h
        exact .inl ⟨_, h.symm, .inl ⟨rt, by simp [accessOrder], hb, rfl⟩⟩
    · simp [exec, execRotate, hd] at h
      exact .inl ⟨_, h.symm, .inl ⟨rs, by simp [accessOrder], hb, rfl⟩⟩
  | slowgravity rt rs imm =>
    rcases regSlot_cases rs with ⟨a, rfl, -⟩ | ⟨hb, -⟩
    · rcases regSlot_cases rt with ⟨d, rfl, -⟩ | ⟨hb, hd⟩
      · rw [exec_slowgravity] at h
        cases h
        exact .inr (footprint_npc s _ rfl rfl rfl rfl (.inl rfl))
      · simp [exec, execSlowgravity, hd] at h
        exact .inl ⟨_, h.symm, .inl ⟨rt, by simp [accessOrder], hb, rfl⟩⟩
    · simp [exec, execSlowgravity, readReg_bad s rs hb] at h
      exact .inl ⟨_, h.symm, .inl ⟨rs, by simp [accessOrder], hb, rfl⟩⟩
  | combo imm =>
    cases h
    exact .inr (footprint_npc s _ (by simp) (by simp) (by simp) (by simp) (.inl (by simp)))
  | downstack =>
    exact .inr (guarded_footprint s _ t _ h (by simp) (by simp) (by simp) (by simp) (.inl (by simp)))
  | topout =>
    exact .inr (guarded_footprint s _ t _ h (by simp) (by simp) (by simp) (by simp) (.inr ⟨_, rfl⟩))
  | allclear =>
    exact .inr (guarded_footprint s _ t _ h (by simp) (by simp) (by simp) (by simp) (.inr ⟨_, rfl⟩))
  | tetris =>
    exact .inr (guarded_footprint s _ t _ h (by simp) (by simp) (by simp) (by simp) (.inr ⟨_, rfl⟩))
  | viewboard =>
    cases h
    exact .inr (footprint_npc s _ rfl rfl rfl rfl (.inr ⟨_, rfl⟩))

end Sys2Proof.Machine
end

