-- ==== Sys2Proof/Laws/PerInstr.lean ====
section
/-! SUPPORT. One lemma per constructor of `Instr`: the word the encoder gives hits the row of its own mnemonic in the
match table of R85, whatever its operands. -/
namespace Sys2Proof.Laws.HitsOwnRow

/-- The encoder's word matches the template of the instruction's own row (R73, R85). -/
def Statement (i : Instr) : Prop := ∃ r ∈ encTable, r.mnemonic = mnemonicOf i ∧ rowHits r (encode i) = true

/-- A row whose mask is its class's mask is hit by its pattern with the operand bits of its instruction. -/
theorem of_row (i : Instr) (r : EncRow) (hr : r ∈ encTable) (hm : r.mnemonic = mnemonicOf i)
    (he : encode i = r.pattern ||| operandBits i) (hc : r.mask = classMask (classOf (mnemonicOf i)))
    (hp : r.pattern &&& r.mask = r.pattern) : Statement i := by
  refine ⟨r, hr, hm, ?_⟩
  rw [rowHits, he, or_masked, hp, hc, operandBits_fixed]
  simp

theorem harddrop (rt rs : Int) (imm : BitVec 16) : Statement (.harddrop rt rs imm) :=
  of_row _ ⟨.harddrop, 0x20000000#32, 0xFC000000#32⟩ (by decide) rfl rfl rfl (by decide)
theorem stack (rd rs rt : Int) : Statement (.stack rd rs rt) :=
  of_row _ ⟨.stack, 0x00000020#32, 0xFC0007FF#32⟩ (by decide) rfl rfl rfl (by decide)
theorem garbage (rd rs rt : Int) : Statement (.garbage rd rs rt) :=
  of_row _ ⟨.garbage, 0x00000022#32, 0xFC0007FF#32⟩ (by decide) rfl rfl rfl (by decide)
theorem attack (rd rs rt : Int) : Statement (.attack rd rs rt) :=
  of_row _ ⟨.attack, 0x70000002#32, 0xFC0007FF#32⟩ (by decide) rfl rfl rfl (by decide)
theorem delay (rs rt : Int) : Statement (.delay rs rt) :=
  of_row _ ⟨.delay, 0x0000001A#32, 0xFC00FFFF#32⟩ (by decide) rfl rfl rfl (by decide)
theorem next (rt : Int) (offset : BitVec 16) (base : Int) : Statement (.next rt offset base) :=
  of_row _ ⟨.next, 0x8C000000#32, 0xFC000000#32⟩ (by decide) rfl rfl rfl (by decide)
theorem hold (rt : Int) (offset : BitVec 16) (base : Int) : Statement (.hold rt offset base) :=
  of_row _ ⟨.hold, 0xAC000000#32, 0xFC000000#32⟩ (by decide) rfl rfl rfl (by decide)
theorem shift (target : BitVec 26) : Statement (.shift target) :=
  of_row _ ⟨.shift, 0x08000000#32, 0xFC000000#32⟩ (by decide) rfl rfl rfl (by decide)
theorem lineclear (rs rt : Int) (offset : BitVec 16) : Statement (.lineclear rs rt offset) :=
  of_row _ ⟨.lineclear, 0x10000000#32, 0xFC000000#32⟩ (by decide) rfl rfl rfl (by decide)
theorem nonclear (rs rt : Int) (offset : BitVec 16) : Statement (.nonclear rs rt offset) :=
  of_row _ ⟨.nonclear, 0x14000000#32, 0xFC000000#32⟩ (by decide) rfl rfl rfl (by decide)
theorem ghostpiece (rt rs : Int) (imm : BitVec 16) : Statement (.ghostpiece rt rs imm) :=
  of_row _ ⟨.ghostpiece, 0x60000000#32, 0xFC000000#32⟩ (by decide) rfl rfl rfl (by decide)
theorem drop (rd : Int) : Statement (.drop rd) :=
  of_row _ ⟨.drop, 0x7C000001#32, 0xFFFF07FF#32⟩ (by decide) rfl rfl rfl (by decide)
theorem rotate (rs rt : Int) : Statement (.rotate rs rt) :=
  of_row _ ⟨.rotate, 0x7C000000#32, 0xFC00FFFF#32⟩ (by decide) rfl rfl rfl (by decide)
theorem slowgravity (rt rs : Int) (imm : BitVec 16) : Statement (.slowgravity rt rs imm) :=
  of_row _ ⟨.slowgravity, 0x64000000#32, 0xFC000000#32⟩ (by decide) rfl rfl rfl (by decide)
theorem combo (imm : BitVec 16) : Statement (.combo imm) :=
  of_row _ ⟨.combo, 0x68000000#32, 0xFFFF0000#32⟩ (by decide) rfl rfl rfl (by decide)
theorem downstack : Statement .downstack :=
  of_row _ ⟨.downstack, 0x7C000010#32, 0xFFFFFFFF#32⟩ (by decide) rfl rfl rfl (by decide)
theorem topout : Statement .topout :=
  of_row _ ⟨.topout, 0x7C000011#32, 0xFFFFFFFF#32⟩ (by decide) rfl rfl rfl (by decide)
theorem allclear : Statement .allclear :=
  of_row _ ⟨.allclear, 0x7C000012#32, 0xFFFFFFFF#32⟩ (by decide) rfl rfl rfl (by decide)
theorem tetris : Statement .tetris :=
  of_row _ ⟨.tetris, 0x7C000013#32, 0xFFFFFFFF#32⟩ (by decide) rfl rfl rfl (by decide)
theorem viewboard : Statement .viewboard :=
  of_row _ ⟨.viewboard, 0x7C000014#32, 0xFFFFFFFF#32⟩ (by decide) rfl rfl rfl (by decide)

end Sys2Proof.Laws.HitsOwnRow
end

