-- ==== Sys2Proof/Laws/Step.lean ====
section
/-! SUPPORT. What a step can be, once: it stops, or the fetch or the decoder raised, or the decoded instruction ran. -/
namespace Sys2Proof.Machine

/-- The illegal word the decoder names is the word it was given (R90). -/
theorem decodeWith_illegal_word (T : List EncRow) (w v : Word) (h : decodeWith T w = .illegal v) : v = w := by
  unfold decodeWith at h
  split at h
  · cases h
  · simpa using h.symm

/-- Everything the front of a step can answer (R107, R109, R110). -/
theorem fetchWith_cases (T : List EncRow) (s : State) :
    (∃ r, s.fault = some r ∧ fetchWith T s = .stop (.latched r)) ∨
    (s.fault = none ∧ s.endPc = some s.pc ∧ fetchWith T s = .stop .runEnded) ∨
    (s.fault = none ∧ s.endPc ≠ some s.pc ∧
      ((∃ e, s.memRead s.pc = .error e ∧ fetchWith T s = .raised e) ∨
       ∃ w, s.memRead s.pc = .ok w ∧
        ((decodeWith T w = .illegal w ∧ fetchWith T s = .raised ⟨.unknownInstruction, w⟩) ∨
         ∃ i, decodeWith T w = .resolved i ∧ fetchWith T s = .instr i))) := by
  cases hf : s.fault with
  | some r => exact .inl ⟨r, rfl, by simp [fetchWith, hf]⟩
  | none =>
    by_cases he : s.endPc = some s.pc
    · exact .inr (.inl ⟨rfl, he, by simp [fetchWith, hf, he]⟩)
    · refine .inr (.inr ⟨rfl, he, ?_⟩)
      cases hr : s.memRead s.pc with
      | error e => exact .inl ⟨e, rfl, by simp [fetchWith, hf, he, hr]⟩
      | ok w =>
        refine .inr ⟨w, rfl, ?_⟩
        cases hd : decodeWith T w with
        | resolved i => exact .inr ⟨i, rfl, by simp [fetchWith, hf, he, hr, hd]⟩
        | illegal v =>
          obtain rfl := decodeWith_illegal_word T w v hd
          exact .inl ⟨rfl, by simp [fetchWith, hf, he, hr, hd]⟩

/-- A step that answers a next state: no fault was latched and the run had not ended; the fetch raised, the decoder
raised, or the decoded instruction ran (R107). -/
theorem stepWith_next (T : List EncRow) (s t : State) (h : stepWith T s = .next t) :
    s.fault = none ∧ s.endPc ≠ some s.pc ∧
      ((¬ (aligned s.pc = true ∧ inMap s.memMap s.pc = true) ∧ t = s.raise ⟨.addressError, s.pc⟩) ∨
       (∃ w, s.memRead s.pc = .ok w ∧ decodeWith T w = .illegal w ∧ t = s.raise ⟨.unknownInstruction, w⟩) ∨
       ∃ w i, s.memRead s.pc = .ok w ∧ decodeWith T w = .resolved i ∧ exec i s = .next t) := by
  unfold stepWith at h
  rcases fetchWith_cases T s with ⟨r, -, hr⟩ | ⟨-, -, hr⟩ | ⟨hf, he, ⟨e, hm, hr⟩ | ⟨w, hm, ⟨hd, hr⟩ | ⟨i, hd, hr⟩⟩⟩
  · rw [hr] at h; cases h
  · rw [hr] at h; cases h
  · rw [hr] at h
    refine ⟨hf, he, .inl ?_⟩
    rcases memRead_cases s s.pc with ⟨-, -, ho⟩ | ⟨hb, ho⟩
    · rw [ho] at hm; cases hm
    · rw [ho] at hm
      cases hm
      exact ⟨hb, by simpa using h.symm⟩
  · rw [hr] at h
    exact ⟨hf, he, .inr (.inl ⟨w, hm, hd, by simpa using h.symm⟩)⟩
  · rw [hr] at h
    exact ⟨hf, he, .inr (.inr ⟨w, i, hm, hd, h⟩)⟩

/-- The register indices of a decoded instruction are in 0..31 (R26). -/
theorem accessOrder_resolve (m : Mnemonic) (w : Word) (r : Int) (h : r ∈ accessOrder (resolve m w)) : 0 ≤ r ∧ r ≤ 31 := by
  have hb : ∀ v : BitVec 5, (0 : Int) ≤ (v.toNat : Int) ∧ (v.toNat : Int) ≤ 31 := fun v => by
    have := v.isLt
    omega
  cases m <;> simp only [resolve, accessOrder, rsOf, rtOf, rdOf, List.mem_cons, List.not_mem_nil, or_false] at h <;>
    rcases h with rfl | rfl | rfl <;> exact hb _

/-- The addresses an access takes, in the words of R54 and in the model's checks. -/
theorem accepts_iff (s : State) (a : Word) : s.accepts a ↔ aligned a = true ∧ inMap s.memMap a = true := by
  rw [aligned_iff]
  simp [State.accepts, inMap, BitVec.le_def]

end Sys2Proof.Machine
end

