-- ==== Sys2Proof/Tests/Slice0.lean ====
section
/-! SUPPORT. Tests: the expected results are the vectors of spec/95_test_vectors.md (named V-…) or are worked out by hand
from the rule named; and for every statement with hypotheses a concrete state and operands that meet them. -/
namespace Sys2Proof.Tests
open Sys2Proof Sys2Proof.Machine

/-! ### Helpers -/

/-- The map of 95_test_vectors.md's conventions. -/
def testMap : List Region := [⟨0x00000000#32, 0x0000FFFC#32⟩, ⟨0xFFFF0000#32, 0xFFFFFFFC#32⟩]

/-- A state with the slots listed, the rest 0, `pc` 0x00001000 and nothing in memory. -/
def plain (l : List (Fin 34 × Word)) : State :=
  l.foldl (fun t p => t.setSlot p.1 p.2) { State.reset with memMap := testMap }

/-- The same with an instruction word at `pc`. -/
def ready (w : Word) (l : List (Fin 34 × Word)) : State := (plain l).setMem 0x00001000#32 w

/-- The slots of a board and a score. -/
def boardAt (cells : List Word) (score : Word) : List (Fin 34 × Word) := (16, score) :: boardSlots.zip cells

/-- What a projection reads in the next state. -/
def after {α : Type} (o : Host.Outcome State Fault Refusal) (f : State → α) : Option α :=
  match o with
  | .next t => some (f t)
  | .fault _ => none
  | .refused _ => none

/-- The fault an outcome is. -/
def stopOf (o : Host.Outcome State Fault Refusal) : Option Fault :=
  match o with
  | .next _ => none
  | .fault r => some r
  | .refused _ => none

/-- The slots named, with `pc` and the latch. -/
def view (js : List (Fin 34)) (t : State) : List Word × Word × Option FaultRecord := (js.map t.slot, t.pc, t.fault)

/-- Board, score, history, `pc` and the latch. -/
def boardView (t : State) : List Word × Word × List Event × Word × Option FaultRecord :=
  (t.board, t.slot 16, t.out, t.pc, t.fault)

/-! ### WellFormed: one ill-formed term for each check -/

theorem test_wf_harddrop : (Instr.harddrop 32 0 1#16).wf = false ∧
    (Instr.harddrop 0 (-1) 1#16).wf = false := by decide
theorem test_wf_stack : (Instr.stack 32 0 0).wf = false ∧
    (Instr.stack 0 32 0).wf = false ∧
    (Instr.stack 0 0 (-1)).wf = false := by decide
theorem test_wf_garbage : (Instr.garbage 32 0 0).wf = false ∧
    (Instr.garbage 0 32 0).wf = false ∧
    (Instr.garbage 0 0 32).wf = false := by decide
theorem test_wf_attack : (Instr.attack (-1) 0 0).wf = false ∧
    (Instr.attack 0 32 0).wf = false ∧
    (Instr.attack 0 0 33).wf = false := by decide
theorem test_wf_delay : (Instr.delay 32 0).wf = false ∧
    (Instr.delay 0 32).wf = false := by decide
theorem test_wf_next : (Instr.next 32 0#16 0).wf = false ∧
    (Instr.next 0 0#16 32).wf = false := by decide
theorem test_wf_hold : (Instr.hold 32 0#16 0).wf = false ∧
    (Instr.hold 0 0#16 (-1)).wf = false := by decide
theorem test_wf_lineclear : (Instr.lineclear 32 0 0#16).wf = false ∧
    (Instr.lineclear 0 32 0#16).wf = false := by decide
theorem test_wf_nonclear : (Instr.nonclear 32 0 0#16).wf = false ∧
    (Instr.nonclear 0 33 0#16).wf = false := by decide
theorem test_wf_ghostpiece : (Instr.ghostpiece 32 0 0#16).wf = false ∧
    (Instr.ghostpiece 0 32 0#16).wf = false := by decide
theorem test_wf_drop : (Instr.drop 32).wf = false := by decide
theorem test_wf_rotate : (Instr.rotate 32 0).wf = false ∧
    (Instr.rotate 0 32).wf = false := by decide
theorem test_wf_slowgravity : (Instr.slowgravity 32 0 0#16).wf = false ∧
    (Instr.slowgravity 0 32 0#16).wf = false := by decide
theorem test_wf_boundary : (Instr.harddrop 31 0 0xFFFF#16).wf = true ∧ (Instr.stack 0 31 31).wf = true ∧
    (Instr.next 31 0x8000#16 31).wf = true ∧ (Instr.drop 31).wf = true ∧ (Instr.shift 0x3FFFFFF#26).wf = true := by decide

/-! ### Decode and encode: every row of R85, the words of V-E1 to V-E25 -/

theorem test_decode_harddrop : decode 0x21080004#32 = .resolved (.harddrop 8 8 4#16) ∧ encode (.harddrop 8 8 4#16) = 0x21080004#32 := by decide
theorem test_decode_harddrop_2 : decode 0x2041FFFF#32 = .resolved (.harddrop 1 2 0xFFFF#16) ∧ encode (.harddrop 1 2 0xFFFF#16) = 0x2041FFFF#32 := by decide
theorem test_decode_stack : decode 0x00221820#32 = .resolved (.stack 3 1 2) ∧ encode (.stack 3 1 2) = 0x00221820#32 := by decide
theorem test_decode_garbage : decode 0x00221822#32 = .resolved (.garbage 3 1 2) ∧ encode (.garbage 3 1 2) = 0x00221822#32 := by decide
theorem test_decode_attack : decode 0x70221802#32 = .resolved (.attack 3 1 2) ∧ encode (.attack 3 1 2) = 0x70221802#32 := by decide
theorem test_decode_delay : decode 0x0085001A#32 = .resolved (.delay 4 5) ∧ encode (.delay 4 5) = 0x0085001A#32 := by decide
theorem test_decode_next : decode 0x8FA9FFF8#32 = .resolved (.next 9 0xFFF8#16 29) ∧ encode (.next 9 0xFFF8#16 29) = 0x8FA9FFF8#32 := by decide
theorem test_decode_hold : decode 0xAC89000C#32 = .resolved (.hold 9 12#16 4) ∧ encode (.hold 9 12#16 4) = 0xAC89000C#32 := by decide
theorem test_decode_shift : decode 0x08000400#32 = .resolved (.shift 1024#26) ∧ encode (.shift 1024#26) = 0x08000400#32 := by decide
theorem test_decode_shift_2 : decode 0x0BFFFFFF#32 = .resolved (.shift 67108863#26) ∧ encode (.shift 67108863#26) = 0x0BFFFFFF#32 := by decide
theorem test_decode_lineclear : decode 0x11090003#32 = .resolved (.lineclear 8 9 3#16) ∧ encode (.lineclear 8 9 3#16) = 0x11090003#32 := by decide
theorem test_decode_nonclear : decode 0x1500FFFE#32 = .resolved (.nonclear 8 0 0xFFFE#16) ∧ encode (.nonclear 8 0 0xFFFE#16) = 0x1500FFFE#32 := by decide
theorem test_decode_ghostpiece : decode 0x61020004#32 = .resolved (.ghostpiece 2 8 4#16) ∧ encode (.ghostpiece 2 8 4#16) = 0x61020004#32 := by decide
theorem test_decode_drop : decode 0x7C004001#32 = .resolved (.drop 8) ∧ encode (.drop 8) = 0x7C004001#32 := by decide
theorem test_decode_drop_2 : decode 0x7C00F801#32 = .resolved (.drop 31) ∧ encode (.drop 31) = 0x7C00F801#32 := by decide
theorem test_decode_rotate : decode 0x7D090000#32 = .resolved (.rotate 8 9) ∧ encode (.rotate 8 9) = 0x7D090000#32 := by decide
theorem test_decode_rotate_2 : decode 0x7FFF0000#32 = .resolved (.rotate 31 31) ∧ encode (.rotate 31 31) = 0x7FFF0000#32 := by decide
theorem test_decode_slowgravity : decode 0x65080001#32 = .resolved (.slowgravity 8 8 1#16) ∧ encode (.slowgravity 8 8 1#16) = 0x65080001#32 := by decide
theorem test_decode_combo : decode 0x6800FFFF#32 = .resolved (.combo 0xFFFF#16) ∧ encode (.combo 0xFFFF#16) = 0x6800FFFF#32 := by decide
theorem test_decode_combo_2 : decode 0x68008000#32 = .resolved (.combo 0x8000#16) ∧ encode (.combo 0x8000#16) = 0x68008000#32 := by decide
theorem test_decode_downstack : decode 0x7C000010#32 = .resolved (.downstack) ∧ encode (.downstack) = 0x7C000010#32 := by decide
theorem test_decode_topout : decode 0x7C000011#32 = .resolved (.topout) ∧ encode (.topout) = 0x7C000011#32 := by decide
theorem test_decode_allclear : decode 0x7C000012#32 = .resolved (.allclear) ∧ encode (.allclear) = 0x7C000012#32 := by decide
theorem test_decode_tetris : decode 0x7C000013#32 = .resolved (.tetris) ∧ encode (.tetris) = 0x7C000013#32 := by decide
theorem test_decode_viewboard : decode 0x7C000014#32 = .resolved (.viewboard) ∧ encode (.viewboard) = 0x7C000014#32 := by decide

/-- V-E26 to V-E31, V-E51: illegal words. -/
theorem test_illegal_op0 :
    decode 0x00000000#32 = .illegal 0x00000000#32 ∧ decode 0xFFFFFFFF#32 = .illegal 0xFFFFFFFF#32 ∧
    decode 0x00221860#32 = .illegal 0x00221860#32 ∧ decode 0x00221821#32 = .illegal 0x00221821#32 ∧
    decode 0x0085081A#32 = .illegal 0x0085081A#32 ∧ decode 0x0085005A#32 = .illegal 0x0085005A#32 ∧
    decode 0x0000000C#32 = .illegal 0x0000000C#32 := by decide
/-- V-E32 to V-E39: illegal words. -/
theorem test_illegal_other_fixed_bits :
    decode 0x70221842#32 = .illegal 0x70221842#32 ∧ decode 0x70221800#32 = .illegal 0x70221800#32 ∧
    decode 0x7C204001#32 = .illegal 0x7C204001#32 ∧ decode 0x7C014001#32 = .illegal 0x7C014001#32 ∧
    decode 0x7C004041#32 = .illegal 0x7C004041#32 ∧ decode 0x7D090800#32 = .illegal 0x7D090800#32 ∧
    decode 0x7C000810#32 = .illegal 0x7C000810#32 ∧ decode 0x7C200011#32 = .illegal 0x7C200011#32 := by decide
/-- V-E40 to V-E44: illegal words. -/
theorem test_illegal_op1f_and_combo :
    decode 0x7C000015#32 = .illegal 0x7C000015#32 ∧ decode 0x7C000002#32 = .illegal 0x7C000002#32 ∧
    decode 0x7C00003F#32 = .illegal 0x7C00003F#32 ∧ decode 0x68010002#32 = .illegal 0x68010002#32 ∧
    decode 0x6A000002#32 = .illegal 0x6A000002#32 := by decide
/-- V-E45 to V-E50: illegal words. -/
theorem test_illegal_opcodes :
    decode 0x0C000400#32 = .illegal 0x0C000400#32 ∧ decode 0x24000000#32 = .illegal 0x24000000#32 ∧
    decode 0x6C000000#32 = .illegal 0x6C000000#32 ∧ decode 0x04000000#32 = .illegal 0x04000000#32 ∧
    decode 0x3C000000#32 = .illegal 0x3C000000#32 ∧ decode 0x90000000#32 = .illegal 0x90000000#32 := by decide

/-- The bit patterns of R85 and R76 to R84 written out: fields op, rs, rt, rd or imm, z, funct. -/
theorem test_decode_bits :
    decode 0b001000_00010_00001_1111111111111111#32 = .resolved (.harddrop 1 2 0xFFFF#16) ∧
    decode 0b000000_00001_00010_00011_00000_100000#32 = .resolved (.stack 3 1 2) ∧
    decode 0b101011_00100_01001_0000000000001100#32 = .resolved (.hold 9 12#16 4) ∧
    decode 0b000010_00000000000000010000000000#32 = .resolved (.shift 1024#26) ∧
    decode 0b011010_00000_00000_0000000000000010#32 = .resolved (.combo 2#16) ∧
    decode 0b011111_01000_01001_00000_00000_000000#32 = .resolved (.rotate 8 9) ∧
    decode 0b011111_00000_00000_00000_00000_010100#32 = .resolved .viewboard := by decide

/-- The host's numbering, and the fetch of the word it places. -/
theorem test_decodeTableWord : decodeTableWord 32 0xAC89000C = some (.hold 9 12#16 4) ∧
    decodeTableWord 32 0 = none := by decide
theorem test_withFetchWord : after (step (State.reset.withFetchWord 32 0x21080004)) (view [8, 9]) =
    some ([4#32, 0#32], 0x00001004#32, none) := by decide

/-! ### Instructions -/

/-- V-A6. -/
theorem test_harddrop_wraps_no_fault : after (step (ready 0x20417FFF#32 [(2, 0x80000000#32)]))
    (view [1, 2]) = some ([0x80007FFF#32, 0x80000000#32], 0x00001004#32, none) := by decide
/-- V-A3, V-F4. -/
theorem test_harddrop_overflow : after (step (ready 0x20410001#32 [(2, 0x7FFFFFFF#32), (1, 0x55#32)]))
    (view [1]) = some ([0x55#32], 0x00001000#32, some ⟨.arithmeticOverflow, 0#32, 0x00001000#32⟩) := by decide
/-- V-A15. -/
theorem test_stack_source_is_destination : after (step (ready 0x00210820#32 [(1, 0x3FFFFFFF#32)]))
    (view [1]) = some ([0x7FFFFFFE#32], 0x00001004#32, none) := by decide
/-- V-A12. -/
theorem test_stack_overflow : after (step (ready 0x00221820#32 [(1, 0x80000000#32), (2, 0x80000000#32), (3, 0x55#32)]))
    (view [3]) = some ([0x55#32], 0x00001000#32, some ⟨.arithmeticOverflow, 0#32, 0x00001000#32⟩) := by decide
/-- V-A23. -/
theorem test_garbage_order : after (step (ready 0x00221822#32 [(1, 0xFFFFFFFF#32), (2, 0x7FFFFFFF#32)]))
    (view [3]) = some ([0x80000000#32], 0x00001004#32, none) := by decide
/-- V-A21. -/
theorem test_garbage_overflow : after (step (ready 0x00221822#32 [(1, 0#32), (2, 0x80000000#32), (3, 0x55#32)]))
    (view [3]) = some ([0x55#32], 0x00001000#32, some ⟨.arithmeticOverflow, 0#32, 0x00001000#32⟩) := by decide
/-- V-M7. -/
theorem test_attack_signed : after (step (ready 0x70221802#32 [(1, 0x0001E240#32), (2, 0xFFF6040F#32), (3, 0x55#32), (32, 0xAAAAAAAA#32), (33, 0xBBBBBBBB#32)]))
    (view [3, 32, 33]) = some ([0x312541C0#32, 0xFFFFFFED#32, 0x312541C0#32], 0x00001004#32, none) := by decide
/-- V-F12: the last write to slot 32 stands. -/
theorem test_attack_to_high : after (exec (.attack 32 1 2) (plain [(1, 3#32), (2, 4#32)])) (view [32, 33]) =
    some ([0#32, 12#32], 0x00001004#32, none) := by decide
/-- V-D2. -/
theorem test_delay_toward_zero : after (step (ready 0x0085001A#32 [(4, 0xFFFFFFF9#32), (5, 2#32), (32, 0xAAAAAAAA#32), (33, 0xBBBBBBBB#32)]))
    (view [32, 33]) = some ([0xFFFFFFFF#32, 0xFFFFFFFD#32], 0x00001004#32, none) := by decide
/-- V-D6. -/
theorem test_delay_by_zero : after (step (ready 0x0085001A#32 [(4, 5#32), (32, 0xAAAAAAAA#32), (33, 0xBBBBBBBB#32)]))
    (view [32, 33]) = some ([0xAAAAAAAA#32, 0xBBBBBBBB#32], 0x00001004#32, none) := by decide
/-- V-L2. -/
theorem test_next_negative_offset :
    after (step ((ready 0x8FA9FFF8#32 [(29, 0x3000#32)]).setMem 0x00002FF8#32 0x12345678#32)) (view [9]) =
      some ([0x12345678#32], 0x00001004#32, none) := by decide
/-- V-L5, V-F5. -/
theorem test_next_misaligned : after (step (ready 0x8C890002#32 [(4, 0x2000#32), (9, 0x55#32)]))
    (view [9]) = some ([0x55#32], 0x00001000#32, some ⟨.addressError, 0x2002#32, 0x00001000#32⟩) := by decide
/-- V-L12, with the byte order of R58: 0xA1B2C3D4 at 0x200C. -/
theorem test_hold_bytes : after (step (ready 0xAC89000C#32 [(4, 0x2000#32), (9, 0xA1B2C3D4#32)]))
    (fun t => ([0x200B, 0x200C, 0x200D, 0x200E, 0x200F, 0x2010].map (readByte t.mem), t.pc)) =
    some ([0#8, 0xD4#8, 0xC3#8, 0xB2#8, 0xA1#8, 0#8], 0x00001004#32) := by decide
/-- V-L16. -/
theorem test_hold_unmapped : after (step (ready 0xAC890000#32 [(4, 0x00010000#32), (9, 0x2A#32)]))
    (fun t => (t.fault, t.mem.length)) = some (some ⟨.addressError, 0x00010000#32, 0x00001000#32⟩, 2) := by decide
/-- V-C3: the region bits come from `npc`. -/
theorem test_shift_region : after (exec (.shift 0x400#26) { plain [] with pc := 0x0FFFFFFC#32 }) (fun t => t.pc) =
    some 0x10001000#32 := by decide
/-- V-F8. -/
theorem test_shift_unmapped : after (step (ready 0x08008000#32 [])) (fun t => (t.pc, t.fault)) =
    some (0x00020000#32, none) := by decide
/-- V-C14: the target wraps. -/
theorem test_lineclear_wraps : after (exec (.lineclear 8 9 1#16) { plain [] with pc := 0xFFFFFFFC#32 }) (fun t => t.pc) =
    some 0x00000004#32 := by decide
/-- V-C8. -/
theorem test_lineclear_not_taken : after (step (ready 0x11090003#32 [(8, 5#32), (9, 6#32)]))
    (view [8, 9]) = some ([5#32, 6#32], 0x00001004#32, none) := by decide
/-- V-C15: a backward branch. -/
theorem test_nonclear_backward : after (exec (.nonclear 8 0 0xFFFE#16) { plain [(8, 3#32)] with pc := 0x00001008#32 })
    (fun t => t.pc) = some 0x00001004#32 := by decide
/-- V-C17, at 0x1000. -/
theorem test_nonclear_not_taken : after (step (ready 0x15080005#32 [(8, 3#32)]))
    (view [8]) = some ([3#32], 0x00001004#32, none) := by decide
/-- V-T3. -/
theorem test_ghostpiece_wraps_and_emits : after (step (ready 0x60C58000#32 [(6, 0x80000000#32)]))
    (fun t => (t.slot 5, t.out, t.pc, t.fault)) =
    some (0x7FFF8000#32, [.ghostpiece 0x7FFF8000#32], 0x00001004#32, none) := by decide
/-- V-T8: draw 3, supplied as the input 2. -/
theorem test_drop_supplied : after (step { ready 0x7C00F801#32 [(31, 0x7FFFFFFE#32)] with draws := [2#2, 0#2] })
    (fun t => (t.slot 31, t.draws, t.drawCount, t.pc)) =
    some (0x80000001#32, [0#2], 1, 0x00001004#32) := by decide
/-- V-T10. -/
theorem test_rotate_swaps : after (step (ready 0x7D090000#32 [(8, 1#32), (9, 2#32)]))
    (view [8, 9]) = some ([2#32, 1#32], 0x00001004#32, none) := by decide
/-- V-T12. -/
theorem test_rotate_same : after (step (ready 0x7C630000#32 [(3, 0x77#32)]))
    (view [3]) = some ([0x77#32], 0x00001004#32, none) := by decide
/-- V-T15. -/
theorem test_slowgravity_wraps : after (step (ready 0x64410001#32 [(2, 0x80000000#32)]))
    (view [1]) = some ([0x7FFFFFFF#32], 0x00001004#32, none) := by decide
/-- V-T16. -/
theorem test_slowgravity_negative : after (step (ready 0x64418000#32 []))
    (view [1]) = some ([0x8000#32], 0x00001004#32, none) := by decide
/-- V-B30. -/
theorem test_combo_wraps : after (step (ready 0x68007FFF#32 (boardAt [0x7FFFFFFF#32, 0#32, 0#32, 0#32, 0#32, 0#32, 0#32, 0#32, 0#32, 0xFFFF8001#32] 5#32))) boardView =
    some ([0x80007FFE#32, 0x7FFF#32, 0x7FFF#32, 0x7FFF#32, 0x7FFF#32, 0x7FFF#32, 0x7FFF#32, 0x7FFF#32, 0x7FFF#32, 0#32], 5#32, [], 0x00001004#32, none) := by decide
/-- V-B28. -/
theorem test_combo_negative : after (step (ready 0x6800FFFF#32 (boardAt [0#32, 0#32, 0#32, 0#32, 0#32, 0#32, 0#32, 0#32, 0#32, 0#32] 5#32))) boardView =
    some ([0xFFFFFFFF#32, 0xFFFFFFFF#32, 0xFFFFFFFF#32, 0xFFFFFFFF#32, 0xFFFFFFFF#32, 0xFFFFFFFF#32, 0xFFFFFFFF#32, 0xFFFFFFFF#32, 0xFFFFFFFF#32, 0xFFFFFFFF#32], 5#32, [], 0x00001004#32, none) := by decide
/-- V-B3. -/
theorem test_downstack_clears : after (step (ready 0x7C000010#32 (boardAt [5#32, 4#32, 3#32, 2#32, 1#32, 1#32, 2#32, 3#32, 4#32, 5#32] 9#32))) boardView =
    some ([4#32, 3#32, 2#32, 1#32, 0#32, 0#32, 1#32, 2#32, 3#32, 4#32], 10#32, [], 0x00001004#32, none) := by decide
/-- V-B4. -/
theorem test_downstack_negative_cell : after (step (ready 0x7C000010#32 (boardAt [1#32, 1#32, 1#32, 1#32, 1#32, 1#32, 1#32, 1#32, 1#32, 0xFFFFFFFF#32] 3#32))) boardView =
    some ([1#32, 1#32, 1#32, 1#32, 1#32, 1#32, 1#32, 1#32, 1#32, 0xFFFFFFFF#32], 3#32, [], 0x00001004#32, none) := by decide
/-- V-B9. -/
theorem test_topout_fires : after (step (ready 0x7C000011#32 (boardAt [0xFFFFFFFB#32, 0#32, 0#32, 0#32, 0#32, 0#32, 0#32, 0#32, 0#32, 21#32] 0xFFFFFFFD#32))) boardView =
    some ([0#32, 0#32, 0#32, 0#32, 0#32, 0#32, 0#32, 0#32, 0#32, 0#32], 0#32, [.topout 0xFFFFFFFD#32], 0x00001004#32, none) := by decide
/-- V-B8. -/
theorem test_topout_not : after (step (ready 0x7C000011#32 (boardAt [19#32, 19#32, 19#32, 19#32, 19#32, 19#32, 19#32, 19#32, 19#32, 19#32] 7#32))) boardView =
    some ([19#32, 19#32, 19#32, 19#32, 19#32, 19#32, 19#32, 19#32, 19#32, 19#32], 7#32, [], 0x00001004#32, none) := by decide
/-- V-B14. -/
theorem test_allclear_doubles : after (step (ready 0x7C000012#32 (boardAt [0#32, 0#32, 0#32, 0#32, 0#32, 0#32, 0#32, 0#32, 0#32, 0#32] 0x40000000#32))) boardView =
    some ([0#32, 0#32, 0#32, 0#32, 0#32, 0#32, 0#32, 0#32, 0#32, 0#32], 0x80000000#32, [.allclear], 0x00001004#32, none) := by decide
/-- V-B18. -/
theorem test_allclear_not : after (step (ready 0x7C000012#32 (boardAt [0#32, 0#32, 0#32, 0#32, 0#32, 0#32, 0#32, 0#32, 0#32, 0x80000000#32] 7#32))) boardView =
    some ([0#32, 0#32, 0#32, 0#32, 0#32, 0#32, 0#32, 0#32, 0#32, 0x80000000#32], 7#32, [], 0x00001004#32, none) := by decide
/-- V-B21. -/
theorem test_tetris_fires : after (step (ready 0x7C000013#32 (boardAt [4#32, 5#32, 6#32, 7#32, 8#32, 9#32, 10#32, 11#32, 12#32, 13#32] 10#32))) boardView =
    some ([0#32, 1#32, 2#32, 3#32, 4#32, 5#32, 6#32, 7#32, 8#32, 9#32], 15#32, [.tetris], 0x00001004#32, none) := by decide
/-- V-B20. -/
theorem test_tetris_not : after (step (ready 0x7C000013#32 (boardAt [4#32, 4#32, 4#32, 4#32, 4#32, 3#32, 4#32, 4#32, 4#32, 4#32] 2#32))) boardView =
    some ([4#32, 4#32, 4#32, 4#32, 4#32, 3#32, 4#32, 4#32, 4#32, 4#32], 2#32, [], 0x00001004#32, none) := by decide
/-- V-B26. -/
theorem test_viewboard_emits : after (step (ready 0x7C000014#32 (boardAt [0xFFFFFFFF#32, 0x80000000#32, 0x7FFFFFFF#32, 0#32, 0#32, 0#32, 0#32, 0#32, 20#32, 4#32] 5#32))) boardView =
    some ([0xFFFFFFFF#32, 0x80000000#32, 0x7FFFFFFF#32, 0#32, 0#32, 0#32, 0#32, 0#32, 20#32, 4#32], 5#32, [.viewboard [0xFFFFFFFF#32, 0x80000000#32, 0x7FFFFFFF#32, 0#32, 0#32, 0#32, 0#32, 0#32, 20#32, 4#32]], 0x00001004#32, none) := by decide

/-! ### The latch, the end of a run, the resolved boundary, reset -/

/-- V-F1, V-F2, V-F3. -/
theorem test_fetch_faults :
    after (step { plain [] with pc := 0x00001002#32 }) (fun t => t.fault) =
      some (some ⟨.addressError, 0x00001002#32, 0x00001002#32⟩) ∧
    after (step { plain [] with pc := 0x00020000#32 }) (fun t => t.fault) =
      some (some ⟨.addressError, 0x00020000#32, 0x00020000#32⟩) ∧
    after (step (plain [])) (fun t => t.fault) = some (some ⟨.unknownInstruction, 0#32, 0x00001000#32⟩) := by decide
/-- V-F7, R110. -/
theorem test_no_step :
    stopOf (step ((plain []).latch .addressError 2#32)) = some (.latched ⟨.addressError, 2#32, 0x00001000#32⟩) ∧
    stopOf (step { plain [] with endPc := some 0x00001000#32 }) = some .runEnded := by decide
/-- V-F9, V-F10, V-F13, V-F11. -/
theorem test_resolved_boundary :
    after (exec (.stack 34 1 2) (plain [])) (fun t => t.fault) = some (some ⟨.invalidRegister, 0x22#32, 0x00001000#32⟩) ∧
    after (exec (.stack 3 (-1) 2) (plain [])) (fun t => t.fault) =
      some (some ⟨.invalidRegister, 0xFFFFFFFF#32, 0x00001000#32⟩) ∧
    after (exec (.harddrop 40 2 1#16) (plain [(2, 0x7FFFFFFF#32)])) (fun t => t.fault) =
      some (some ⟨.invalidRegister, 0x28#32, 0x00001000#32⟩) ∧
    after (exec (.attack 33 1 2) (plain [(1, 3#32), (2, 4#32)])) (view [32, 33]) =
      some ([0#32, 12#32], 0x00001004#32, none) := by decide
/-- R40, R204: the port codes, and the debug read of HIGH and of an index with no slot. -/
theorem test_ports : (plain []).faultCode = 0#3 ∧ ((plain []).latch .unknownInstruction 0#32).faultCode = 4#3 ∧
    eventKind (.viewboard []) = 5#3 ∧ eventData (.topout 7#32) = [7#32] ∧
    ((plain [(32, 9#32)]).debugReg 32#6).toOption = some 9#32 ∧ ((plain []).debugReg 34#6).toOption = none := by decide

/-! ### Witnesses: for each statement with hypotheses, states and operands that meet all of them -/

/-- An address the test map takes. -/
theorem accepts_of (s : State) (a : Word) (h : (aligned a && inMap s.memMap a) = true) : s.accepts a :=
  (accepts_iff s a).mpr (by simpa using h)
theorem not_accepts_of (s : State) (a : Word) (h : (aligned a && inMap s.memMap a) = false) : ¬ s.accepts a := by
  rw [accepts_iff]
  simpa using h

theorem witness_DecodeOfEncode : (Instr.attack 31 0 31).wf = true ∧ (Instr.shift 0x3FFFFFF#26).wf = true ∧
    (Instr.hold 0 0x8000#16 31).wf = true := by decide
theorem witness_EncodeOfDecode : decode 0x7FFF0000#32 = .resolved (.rotate 31 31) := by decide

/-- A table other than R85's: `harddrop` at opcode 0x09. -/
def movedTable : List EncRow := ⟨.harddrop, 0x24000000#32, 0xFC000000#32⟩ :: encTable.tail
theorem witness_RoundTripUnderAnyTable : tableOk movedTable = true ∧ movedTable ≠ encTable ∧
    (∀ r ∈ movedTable, r.mask = classMask (classOf r.mnemonic)) ∧ (Instr.harddrop 31 0 0xFFFF#16).wf = true ∧
    encodeWith movedTable (.harddrop 31 0 0xFFFF#16) = some 0x241FFFFF#32 := by decide
theorem witness_NoWordMatchesTwoRows :
    movedTable.Pairwise (fun a b => (a.pattern ^^^ b.pattern) &&& a.mask &&& b.mask ≠ 0#32) ∧
    ⟨.harddrop, 0x24000000#32, 0xFC000000#32⟩ ∈ movedTable ∧
    0x27FFFFFF#32 &&& 0xFC000000#32 = 0x24000000#32 := by decide
theorem witness_UnassignedEncodingsAreIllegal :
    (0xFFFFFFFF#32).extractLsb' 26 6 ∉ [0x00#6, 0x02#6, 0x04#6, 0x05#6, 0x08#6, 0x18#6, 0x19#6, 0x1A#6, 0x1C#6, 0x1F#6,
      0x23#6, 0x2B#6] ∧
    ((0x00221860#32).extractLsb' 26 6 = 0x00#6 ∧ (0x00221860#32).extractLsb' 0 11 ≠ 0x020#11 ∧
      (0x00221860#32).extractLsb' 0 11 ≠ 0x022#11 ∧ (0x00221860#32).extractLsb' 0 16 ≠ 0x001A#16) ∧
    ((0x68010002#32).extractLsb' 26 6 = 0x1A#6 ∧ (0x68010002#32).extractLsb' 16 10 ≠ 0#10) ∧
    ((0x70221842#32).extractLsb' 26 6 = 0x1C#6 ∧ (0x70221842#32).extractLsb' 0 11 ≠ 0x002#11) := by decide
theorem witness_UnassignedEncodingsAreIllegal_op1F :
    (0x7C000015#32).extractLsb' 26 6 = 0x1F#6 ∧ (0x7C000015#32).extractLsb' 0 16 ≠ 0#16 ∧
    ¬ ((0x7C000015#32).extractLsb' 16 10 = 0#10 ∧ (0x7C000015#32).extractLsb' 0 11 = 0x001#11) ∧
    ¬ ((0x7C000015#32).extractLsb' 16 10 = 0#10 ∧
      (0x7C000015#32).extractLsb' 0 16 ∈ [0x10#16, 0x11#16, 0x12#16, 0x13#16, 0x14#16]) := by decide

theorem witness_StepRunsTheDecodedInstruction : ∃ s : State, s.fault = none ∧ s.endPc ≠ some s.pc ∧ s.accepts s.pc ∧
    decode (readWord s.mem s.pc.toNat) = .resolved (.harddrop 8 8 4#16) :=
  ⟨ready 0x21080004#32 [], by decide, by decide, accepts_of _ _ (by decide), by decide⟩
theorem witness_StepRunsTheDecodedInstruction_otherTable : ∃ s : State, s.fault = none ∧ s.endPc ≠ some s.pc ∧
    s.accepts s.pc ∧ decodeWith movedTable (readWord s.mem s.pc.toNat) = .resolved (.harddrop 8 8 4#16) :=
  ⟨ready 0x25080004#32 [], by decide, by decide, accepts_of _ _ (by decide), by decide⟩
theorem witness_FetchFromBadPcRaisesAddressError : ∃ s u : State, (s.fault = none ∧ s.endPc ≠ some s.pc ∧
    ¬ s.accepts s.pc) ∧ (u.fault = none ∧ u.endPc ≠ some u.pc ∧ ¬ u.accepts u.pc ∧ u.pc.toNat % 4 = 0) :=
  ⟨{ plain [] with pc := 0x00001002#32 }, { plain [] with pc := 0x00010000#32 },
    ⟨by decide, by decide, not_accepts_of _ _ (by decide)⟩,
    ⟨by decide, by decide, not_accepts_of _ _ (by decide), by decide⟩⟩
theorem witness_IllegalWordRaisesUnknownInstruction : ∃ s : State, s.fault = none ∧ s.endPc ≠ some s.pc ∧
    s.accepts s.pc ∧ readWord s.mem s.pc.toNat = 0xFFFFFFFF#32 ∧
    ∀ r ∈ encTable, 0xFFFFFFFF#32 &&& r.mask ≠ r.pattern :=
  ⟨ready 0xFFFFFFFF#32 [], by decide, by decide, accepts_of _ _ (by decide), by decide, by decide⟩
theorem witness_NoStepFromALatchedState :
    ((plain []).latch .addressError 2#32).fault = some ⟨.addressError, 2#32, 0x00001000#32⟩ := by decide
theorem witness_RunEndsAtEndPc : (plain []).fault = none ∧
    ({ plain [] with endPc := some 0x00001000#32 } : State).endPc = some (plain []).pc := by decide
theorem witness_FaultsArePrecise :
    (∃ s t : State, step s = .next t ∧ ∃ r, t.fault = some r) ∧
    ∃ (s t : State) (i : Instr), s.fault = none ∧ exec i s = .next t ∧ ∃ r, t.fault = some r :=
  ⟨⟨plain [], _, rfl, _, rfl⟩, plain [], _, .drop 34, by decide, rfl, _, rfl⟩

/-- Words of each template of R85 with every operand bit 1. -/
theorem witness_words :
    0x23FFFFFF#32 &&& 0xFC000000#32 = 0x20000000#32 ∧ 0x03FFF820#32 &&& 0xFC0007FF#32 = 0x00000020#32 ∧
    0x03FFF822#32 &&& 0xFC0007FF#32 = 0x00000022#32 ∧ 0x73FFF802#32 &&& 0xFC0007FF#32 = 0x70000002#32 ∧
    0x03FF001A#32 &&& 0xFC00FFFF#32 = 0x0000001A#32 ∧ 0x8FFFFFFF#32 &&& 0xFC000000#32 = 0x8C000000#32 ∧
    0xAFFFFFFF#32 &&& 0xFC000000#32 = 0xAC000000#32 ∧ 0x0BFFFFFF#32 &&& 0xFC000000#32 = 0x08000000#32 ∧
    0x13FFFFFF#32 &&& 0xFC000000#32 = 0x10000000#32 ∧ 0x17FFFFFF#32 &&& 0xFC000000#32 = 0x14000000#32 ∧
    0x63FFFFFF#32 &&& 0xFC000000#32 = 0x60000000#32 ∧ 0x7C00F801#32 &&& 0xFFFF07FF#32 = 0x7C000001#32 ∧
    0x7FFF0000#32 &&& 0xFC00FFFF#32 = 0x7C000000#32 ∧ 0x67FFFFFF#32 &&& 0xFC000000#32 = 0x64000000#32 ∧
    0x6800FFFF#32 &&& 0xFFFF0000#32 = 0x68000000#32 := by decide

/-- Both clauses at the edges of the signed range: 2^31 - 1 fits, one more or one below the least does not. -/
theorem witness_HarddropAddsImmediate :
    fitsWord (((plain [(2, 0x7FFFFFFE#32)]).slot 2).toInt + (1#16).toInt) ∧
    ¬ fitsWord (((plain [(2, 0x7FFFFFFF#32)]).slot 2).toInt + (1#16).toInt) ∧
    ¬ fitsWord (((plain [(2, 0x80000000#32)]).slot 2).toInt + (0xFFFF#16).toInt) := by
  unfold fitsWord
  decide
theorem witness_StackAddsRegisters :
    fitsWord (((plain [(1, 0x80000000#32)]).slot 1).toInt + ((plain []).slot 2).toInt) ∧
    ¬ fitsWord (((plain [(1, 0x40000000#32)]).slot 1).toInt + ((plain [(1, 0x40000000#32)]).slot 1).toInt) := by
  unfold fitsWord
  decide
theorem witness_GarbageSubtractsRegisters :
    fitsWord (((plain [(1, 0xFFFFFFFF#32)]).slot 1).toInt - ((plain [(2, 0x80000000#32)]).slot 2).toInt) ∧
    ¬ fitsWord (((plain []).slot 1).toInt - ((plain [(2, 0x80000000#32)]).slot 2).toInt) := by
  unfold fitsWord
  decide
theorem witness_AttackMultiplies : (33 : Fin 34) ≠ 32 ∧ (0 : Fin 34) ≠ 32 := by decide
theorem witness_DelayDivides : (plain []).slot 5 = 0#32 ∧ (plain [(5, 1#32)]).slot 5 ≠ 0#32 := by decide
theorem witness_NextLoadsAWord :
    (plain [(4, 0x0000FFF0#32)]).accepts ((plain [(4, 0x0000FFF0#32)]).slot 4 + (0x000C#16).signExtend 32) ∧
    (plain [(4, 3#32)]).accepts ((plain [(4, 3#32)]).slot 4 + (0xFFF9#16).signExtend 32) ∧
    ¬ (plain [(4, 0x0000FFFC#32)]).accepts ((plain [(4, 0x0000FFFC#32)]).slot 4 + (4#16).signExtend 32) ∧
    ¬ (plain []).accepts ((plain []).slot 4 + (2#16).signExtend 32) :=
  ⟨accepts_of _ _ (by decide), accepts_of _ _ (by decide), not_accepts_of _ _ (by decide), not_accepts_of _ _ (by decide)⟩
theorem witness_HoldStoresAWord : memWf (ready 0x21080004#32 []).mem = true ∧
    (ready 0x21080004#32 []).accepts ((ready 0x21080004#32 []).slot 4 + (0xFFFC#16).signExtend 32) ∧
    ¬ (ready 0x21080004#32 []).accepts ((ready 0x21080004#32 []).slot 4 + (1#16).signExtend 32) :=
  ⟨by decide, accepts_of _ _ (by decide), not_accepts_of _ _ (by decide)⟩
theorem witness_DropAddsADraw : ({ plain [] with draws := [3#2] } : State).draws = [3#2] := by decide

/-- Guards that hold and that fail, at the least and the greatest cell that decide them. -/
theorem witness_DownstackTransition :
    (∀ j ∈ boardSlots, 1 ≤ ((plain (boardAt (List.replicate 10 1#32) 0#32)).slot j).toInt) ∧
    (∃ j ∈ boardSlots, ((plain []).slot j).toInt < 1) := by decide
theorem witness_TopoutTransition :
    (∃ j ∈ boardSlots, 20 ≤ ((plain [(25, 20#32)]).slot j).toInt) ∧
    (∀ j ∈ boardSlots, ((plain (boardAt (List.replicate 10 19#32) 0#32)).slot j).toInt < 20) := by decide
theorem witness_AllclearTransition : (∀ j ∈ boardSlots, (plain []).slot j = 0#32) ∧
    (∃ j ∈ boardSlots, (plain [(25, 0x80000000#32)]).slot j ≠ 0#32) := by decide
theorem witness_TetrisTransition :
    (∀ j ∈ boardSlots, 4 ≤ ((plain (boardAt (List.replicate 10 4#32) 0#32)).slot j).toInt) ∧
    (∃ j ∈ boardSlots, ((plain (boardAt (List.replicate 9 4#32) 0#32)).slot j).toInt < 4) := by decide
theorem witness_BoardGuardsRelate : (plain (boardAt (List.replicate 10 4#32) 0#32)).allGe4 = true ∧
    (plain []).allEq0 = true := by decide
theorem witness_RotateTwiceRestores : ∃ s t u : State, exec (.rotate ((8 : Fin 34).val) ((9 : Fin 34).val)) s = .next t ∧
    exec (.rotate ((8 : Fin 34).val) ((9 : Fin 34).val)) t = .next u ∧ s.slot 8 ≠ s.slot 9 :=
  ⟨plain [(8, 1#32)], _, _, rfl, rfl, by decide⟩

theorem witness_InvalidRegisterAtTheFirstBadOperand :
    accessOrder (.stack 34 33 (-1)) = [33] ++ (-1) :: [34] ∧ (∀ q ∈ ([33] : List Int), 0 ≤ q ∧ q ≤ 33) ∧
    ¬ (0 ≤ (-1 : Int) ∧ (-1 : Int) ≤ 33) ∧ ¬ (0 ≤ (34 : Int) ∧ (34 : Int) ≤ 33) := by decide
theorem witness_InvalidRegister_goodOperands : ∃ (s t : State) (i : Instr), (∀ q ∈ accessOrder i, 0 ≤ q ∧ q ≤ 33) ∧
    s.fault = none ∧ exec i s = .next t ∧ ∃ f, t.fault = some f :=
  ⟨plain [(1, 0x7FFFFFFF#32)], _, .stack 33 1 1, by decide, by decide, rfl, _, rfl⟩
theorem witness_NoWordRaisesInvalidRegister : ∃ s t : State, step s = .next t ∧ ∃ f, t.fault = some f :=
  ⟨plain [], _, rfl, _, rfl⟩
theorem witness_OverflowOnlyFromTheCheckedThree_clauses :
    addOvf ((plain [(1, 0x80000000#32)]).slot 1) ((0xFFFF#16).signExtend 32) = true ∧
    addOvf ((plain [(1, 0x7FFFFFFF#32), (2, 1#32)]).slot 1) ((plain [(1, 0x7FFFFFFF#32), (2, 1#32)]).slot 2) = true ∧
    subOvf ((plain [(2, 0x80000000#32)]).slot 1) ((plain [(2, 0x80000000#32)]).slot 2) = true := by decide
theorem witness_AddressErrorFromBadAddresses :
    ((plain []).accepts 0x0000FFFC#32 ∧ ¬ (plain []).accepts 0x00010000#32 ∧ ¬ (plain []).accepts 0x0000FFFD#32) ∧
    (¬ (plain [(4, 0x00010000#32)]).accepts ((plain [(4, 0x00010000#32)]).slot 4 + (0#16).signExtend 32)) ∧
    (∃ s : State, s.fault = none ∧ s.endPc ≠ some s.pc ∧ ¬ s.accepts s.pc) ∧
    ∃ (s t : State) (i : Instr) (f : FaultRecord), s.fault = none ∧ exec i s = .next t ∧ t.fault = some f ∧
      f.cond = .addressError :=
  ⟨⟨accepts_of _ _ (by decide), not_accepts_of _ _ (by decide), not_accepts_of _ _ (by decide)⟩,
    not_accepts_of _ _ (by decide),
    ⟨{ plain [] with pc := 0x00010000#32 }, by decide, by decide, not_accepts_of _ _ (by decide)⟩,
    plain [], _, .next 9 2#16 4, _, by decide, rfl, rfl, rfl⟩
theorem witness_OverflowOnlyFromTheCheckedThree : ∃ (s t : State) (i : Instr) (f : FaultRecord), s.fault = none ∧
    exec i s = .next t ∧ t.fault = some f ∧ f.cond = .arithmeticOverflow :=
  ⟨plain [(1, 0x7FFFFFFF#32)], _, .stack 33 1 1, _, by decide, rfl, rfl, rfl⟩

/-- Every instruction of a frame statement answers a next state, in a state with an address to store to, from good
operands and from bad ones. -/
theorem witness_frames : ∀ i ∈ [Instr.harddrop 33 1 1#16, .stack 3 1 2, .garbage 3 40 2, .slowgravity 3 1 1#16,
    .next 3 0#16 4, .ghostpiece 2 8 4#16, .drop 8, .attack 32 1 2, .delay 1 2, .hold 3 0#16 4, .hold 3 0#16 34,
    .shift 1#26, .lineclear 1 2 3#16, .nonclear 1 34 3#16, .rotate 8 9, .combo 2#16, .downstack, .topout, .allclear,
    .tetris, .viewboard], ∃ t, exec i (plain []) = .next t := fun i _ => exec_total i _

theorem witness_StepKeepsMemoryCanonical : ∃ s t : State, memWf s.mem = true ∧ s.memInMap ∧ s.mem ≠ [] ∧
    step s = .next t ∧ t.mem ≠ s.mem := by
  refine ⟨ready 0xAC89000C#32 [(4, 0x2000#32), (9, 0xA1B2C3D4#32)], _, by decide, ?_, by decide, rfl, by decide⟩
  unfold State.memInMap
  decide
theorem witness_StepKeepsPcAligned : ∃ s t : State, s.pc.toNat % 4 = 0 ∧ step s = .next t ∧ t.pc ≠ s.pc :=
  ⟨ready 0x08000401#32 [], _, by decide, rfl, by decide⟩
/-- A state with no fault meets the latch invariant, and so does one with a fault latched. -/
theorem witness_StepKeepsLatchOk : (plain []).latchOk ∧ (∃ t, step (plain []) = .next t) ∧
    ((plain []).latch .arithmeticOverflow 0#32).latchOk := by
  refine ⟨fun r h => (by cases h), ⟨_, rfl⟩, fun r h => ?_⟩
  cases h
  exact ⟨rfl, by decide, fun _ => rfl, fun h => (by cases h), fun h => (by cases h)⟩
theorem witness_StepKeepsRunParameters : ∃ t, step (ready 0x21080004#32 []) = .next t := ⟨_, rfl⟩
theorem witness_OutputIsAppendOnly : (∃ t, step (ready 0x7C000014#32 []) = .next t ∧ t.out ≠ []) ∧
    ∃ t, step (plain []) = .next t ∧ t.fault ≠ none := ⟨⟨_, rfl, by decide⟩, _, rfl, by decide⟩
theorem witness_WhichInstructionsTouchWhat : (Instr.viewboard).wf = true ∧ (Instr.drop 31).wf = true ∧
    ∃ t, exec (.drop 31) (plain []) = .next t := ⟨by decide, by decide, exec_total _ _⟩

theorem witness_LoadSeesTheLastStore : ∃ s u : State, memWf s.mem = true ∧ s.memWrite 0x2000#32 7#32 = .ok u :=
  ⟨plain [], _, by decide, rfl⟩
theorem witness_StoreIsSeenByTheNextFetch : ∃ s t : State, memWf s.mem = true ∧ s.fault = none ∧
    s.accepts (s.pc + 4#32) ∧ s.endPc ≠ some (s.pc + 4#32) ∧ s.slot 4 + (4#16).signExtend 32 = s.pc + 4#32 ∧
    decode (s.slot 9) = .resolved .viewboard ∧
    exec (.hold ((9 : Fin 34).val) 4#16 ((4 : Fin 34).val)) s = .next t :=
  ⟨plain [(4, 0x1000#32), (9, 0x7C000014#32)], _, by decide, by decide, accepts_of _ _ (by decide), by decide, by decide,
    by decide, rfl⟩
theorem witness_CanonicalMemoryIsUnique : memWf [(4, 1#8), (9, 2#8)] = true ∧
    ∀ a, readByte [(4, 1#8), (9, 2#8)] a = readByte [(4, 1#8), (9, 2#8)] a := ⟨by decide, fun _ => rfl⟩
theorem test_memWf_refuses : memWf [(9, 2#8), (4, 1#8)] = false ∧ memWf [(4, 0#8)] = false ∧
    memWf [(4, 1#8), (4, 2#8)] = false ∧ memWf [(4294967296, 1#8)] = false := by decide
theorem witness_RstStartsARun : ((plain []).latch .addressError 2#32).endPc ≠ some RunParams.default.pcReset := by decide

end Sys2Proof.Tests
end

/-! PROOFS. Statements of the family 10_state: `drop`, `combo`, the frame of `ghostpiece` and `drop`, and what every step
keeps of the latch and the output history. -/
namespace Sys2Proof.Machine

/-! ### Words of a template -/

/-- A word that matches a row of R85 decodes to the row's mnemonic with the operands extracted (R73, R90). -/
theorem decode_of_template (r : EncRow) (hr : r ∈ encTable) (w : Word) (h : w &&& r.mask = r.pattern) :
    decode w = .resolved (resolve r.mnemonic w) :=
  decodeWith_of_hit encTable encTable_unambiguous r hr w (by simpa [rowHits] using h)

/-! ### Draws -/

/-- A draw lies in 1..4, whatever the `rand` input shows (R37). -/
theorem State.draw_bounds (s : State) : 1 ≤ s.draw ∧ s.draw ≤ 4 := by
  have := s.rand.isLt
  simp only [State.draw]
  omega

/-- A supplied draw is the first 2-bit input plus 1 (R37). -/
theorem State.draw_supplied (s : State) (r : BitVec 2) (rest : List (BitVec 2)) (h : s.draws = r :: rest) :
    s.draw = r.toNat + 1 := by
  simp [State.draw, State.rand, h]

/-- Settles O24: the draw `Draw()` of R37 is the `k` asked for. -/
theorem dropAddsADraw : Obligations.DropAddsADraw := by
  refine ⟨decode_of_template ⟨.drop, 0x7C000001#32, 0xFFFF07FF#32⟩ (by decide), fun rd s => ?_⟩
  obtain ⟨hlo, hhi⟩ := s.draw_bounds
  refine ⟨s.draw, hlo, hhi, s.draw_supplied, ?_⟩
  rw [exec_drop, npc_eq]
  rfl

/-! ### The board registers -/

/-- The ten board slots by their indices (R23). -/
theorem val_mem_boardIndices (j : Fin 34) : (j.val : Int) ∈ boardIndices ↔ j ∈ boardSlots := by
  revert j
  decide

/-- A board update keeps every slot but the ten cells (R23). -/
theorem slotsKeptBut_mapBoard (s : State) (f : Word → Word) : slotsKeptBut boardIndices s (s.mapBoard f) := by
  intro j hj
  rw [State.mapBoard_slot, if_neg (mt (val_mem_boardIndices j).mpr hj)]

/-- A run of slot writes changes the register file alone (R25). -/
theorem foldl_setSlot_eq (g : Fin 34 → Word) (l : List (Fin 34)) (s : State) :
    l.foldl (fun t j => t.setSlot j (g j)) s =
      { s with regs := (l.foldl (fun t j => t.setSlot j (g j)) s).regs } := by
  induction l generalizing s with
  | nil => rfl
  | cons j l ih => exact ih (s.setSlot j (g j))

/-- A board update changes the register file alone (R23). -/
theorem State.mapBoard_eq (s : State) (f : Word → Word) : s.mapBoard f = { s with regs := (s.mapBoard f).regs } :=
  foldl_setSlot_eq (fun j => f (s.slot j)) boardSlots s

/-- Moving `pc` changes no slot (R31). -/
@[simp] theorem slotsKeptBut_setPc (W : List Int) (s t : State) (a : Word) :
    slotsKeptBut W s (t.setPc a) ↔ slotsKeptBut W s t := Iff.rfl

/-- Settles O27: `combo` is one board update, by the wrapping adder of R118. -/
theorem comboAddsToTheBoard : Obligations.ComboAddsToTheBoard := by
  refine ⟨decode_of_template ⟨.combo, 0x68000000#32, 0xFFFF0000#32⟩ (by decide), fun imm s =>
    ⟨_, exec_combo imm s, fun j hj => ?_, (slotsKeptBut_setPc _ _ _ _).mpr (slotsKeptBut_mapBoard s _), ?_⟩⟩
  · have hj : j ∈ boardSlots := hj
    simp [hj, addWrap_eq, sext16]
  · rw [npc_eq, State.mapBoard_eq]
    rfl

/-! ### Frames of `ghostpiece` and `drop` -/

/-- Only slot `d` may change, said of slots instead of indices. -/
theorem slotsKeptBut_singleton (d : Fin 34) (s t : State) :
    slotsKeptBut [(d.val : Int)] s t ↔ ∀ j, j ≠ d → t.slot j = s.slot j := by
  simp [slotsKeptBut, Fin.ext_iff]

/-- A raised condition takes the latch at the instruction's own `pc` (R209). -/
theorem latchKeptOrTaken_raise (s : State) (e : Raised) : latchKeptOrTaken s (s.raise e) :=
  .inr ⟨e.cond, e.info, rfl, rfl⟩

/-- What `ghostpiece` did: it raised, or both operands name slots and it completed (R165). -/
theorem exec_ghostpiece_next (rt rs : Int) (imm : BitVec 16) (s t : State) (h : exec (.ghostpiece rt rs imm) s = .next t) :
    (∃ e, t = s.raise e) ∨
    ∃ d a : Fin 34, rt = d.val ∧ rs = a.val ∧ t = ((s.setSlot d (addWrap (s.slot a) (sext16 imm))).emit
      (.ghostpiece (addWrap (s.slot a) (sext16 imm)))).setPc s.npc := by
  rcases regSlot_cases rs with ⟨a, rfl, -⟩ | ⟨hb, -⟩
  · rcases regSlot_cases rt with ⟨d, rfl, -⟩ | ⟨-, hd⟩
    · rw [exec_ghostpiece] at h
      cases h
      exact .inr ⟨d, a, rfl, rfl, rfl⟩
    · simp [exec, execGhostpiece, hd] at h
      exact .inl ⟨_, h.symm⟩
  · simp [exec, execGhostpiece, readReg_bad s rs hb] at h
    exact .inl ⟨_, h.symm⟩

/-- What `drop` did: it raised, or its operand names a slot and it completed (R166). -/
theorem exec_drop_next (rd : Int) (s t : State) (h : exec (.drop rd) s = .next t) :
    (∃ e, t = s.raise e) ∨
    ∃ d : Fin 34, rd = d.val ∧ t = (s.consumeDraw.setSlot d (wrap32 ((s.slot d).toInt + s.draw))).setPc s.npc := by
  rcases regSlot_cases rd with ⟨d, rfl, -⟩ | ⟨-, hd⟩
  · rw [exec_drop] at h
    cases h
    exact .inr ⟨d, rfl, rfl⟩
  · simp [exec, execDrop, hd] at h
    exact .inl ⟨_, h.symm⟩

/-- Settles O41: a raised condition changes the latch alone; a completed `ghostpiece` or `drop` writes one slot. -/
theorem frameOfGhostpieceAndDrop : Obligations.FrameOfGhostpieceAndDrop := by
  refine ⟨fun s t rt rs imm h => ?ghostpiece, fun s t rd h => ?drop⟩
  case ghostpiece =>
    rcases exec_ghostpiece_next rt rs imm s t h with ⟨e, rfl⟩ | ⟨d, a, rfl, rfl, rfl⟩
    · exact ⟨fun _ _ => rfl, fun _ => rfl, ⟨rfl, rfl⟩, ⟨rfl, rfl⟩, .inr ⟨rfl, latchKeptOrTaken_raise s e⟩⟩
    · refine ⟨(slotsKeptBut_singleton d _ _).mpr fun j hj => ?_, fun _ => rfl, ⟨rfl, rfl⟩, ⟨rfl, rfl⟩, .inl ⟨_, rfl, rfl⟩⟩
      simp [Ne.symm hj]
  case drop =>
    rcases exec_drop_next rd s t h with ⟨e, rfl⟩ | ⟨d, rfl, rfl⟩
    · exact ⟨fun _ _ => rfl, fun _ => rfl, rfl, ⟨rfl, rfl⟩, .inr ⟨⟨rfl, rfl⟩, latchKeptOrTaken_raise s e⟩⟩
    · refine ⟨(slotsKeptBut_singleton d _ _).mpr fun j hj => ?_, fun _ => rfl, rfl, ⟨rfl, rfl⟩, .inl ⟨rfl, rfl, rfl⟩⟩
      simp [Ne.symm hj]

/-! ### What every step keeps -/

/-- A decoded instruction never raises `InvalidRegister` (R26): its operands are 5-bit fields. -/
theorem ne_invalidRegister_of_decoded (T : List EncRow) (w : Word) (i : Instr) (s : State) (e : Raised)
    (hd : decodeWith T w = .resolved i) (h : MayRaise i s e) : e.cond ≠ .invalidRegister := by
  rcases h with ⟨r, hr, hbad, -⟩ | ⟨rfl, -⟩ | ⟨he, -, -⟩
  · obtain ⟨row, -, -, rfl⟩ := decodeWith_resolved T w i hd
    obtain ⟨hlo, hhi⟩ := accessOrder_resolve row.mnemonic w r hr
    exact absurd ⟨hlo, by omega⟩ hbad
  · decide
  · simp [he]

/-- A step that answers a next state, from an unlatched one: it raised one of the other three conditions, or an
instruction committed (R103, R107). -/
theorem stepWith_raised_or_committed (T : List EncRow) (s t : State) (h : stepWith T s = .next t) :
    s.fault = none ∧ ((∃ e : Raised, t = s.raise e ∧ e.cond ≠ .invalidRegister) ∨ Footprint s t) := by
  obtain ⟨hf, -, ⟨-, ht⟩ | ⟨w, -, -, ht⟩ | ⟨w, i, -, hd, hx⟩⟩ := stepWith_next T s t h
  · exact ⟨hf, .inl ⟨_, ht, by simp⟩⟩
  · exact ⟨hf, .inl ⟨_, ht, by simp⟩⟩
  · rcases exec_cases i s t hx with ⟨e, ht, he⟩ | hp
    · exact ⟨hf, .inl ⟨e, ht, ne_invalidRegister_of_decoded T w i s e hd he⟩⟩
    · exact ⟨hf, .inr hp⟩

/-- Settles O37: a latched condition was raised by this step, and a committed instruction keeps the empty latch. -/
theorem noWordRaisesInvalidRegister : Obligations.NoWordRaisesInvalidRegister := by
  intro s t h f hf
  obtain ⟨hs, ⟨e, rfl, he⟩ | hp⟩ := stepWith_raised_or_committed encTable s t h
  · cases hf
    exact he
  · rw [hp.fault, hs] at hf
    cases hf

/-- Settles O51: a raised condition emits nothing; a committed instruction emits at most one event and latches nothing. -/
theorem outputIsAppendOnly : Obligations.OutputIsAppendOnly := by
  intro s t h
  obtain ⟨hs, ⟨e, rfl, -⟩ | hp⟩ := stepWith_raised_or_committed encTable s t h
  · exact ⟨[], by simp⟩
  · have hnone : t.fault = none := hp.fault.trans hs
    rcases hp.out with ho | ⟨e, ho⟩
    · exact ⟨[], by simp [ho]⟩
    · exact ⟨[e], ho, le_rfl, fun hne => absurd hnone hne⟩

end Sys2Proof.Machine

/-! PROOFS. Statements of the family 20_memory: the canonical form of memory, loads and stores, and which instructions
touch memory, HIGH, LOW and the draws. -/
namespace Sys2Proof.Machine

/-! ### The canonical form -/

/-- A canonical memory from its first pair on: the pair is in range and listed for a reason, the rest lies above it. -/
theorem memWfFrom_cons (lo k : Nat) (v : Byte) (m : Memory) :
    memWfFrom lo ((k, v) :: m) = true ↔
      lo ≤ k ∧ k < 2 ^ 32 ∧ v ≠ unlistedByte ∧ memWfFrom (k + 1) m = true := by
  simp [memWfFrom, and_assoc]

/-- The first pair of a memory gives the byte at its address. -/
@[simp] theorem readByte_cons_self (k : Nat) (v : Byte) (m : Memory) : readByte ((k, v) :: m) k = v := by
  simp [readByte]

/-- Where two canonical memories read the same, neither lists an address below the first one of the other. -/
theorem not_lt_of_reads_same (lo k l : Nat) (v w : Byte) (m n : Memory) (hv : v ≠ unlistedByte)
    (hn : memWfFrom lo ((l, w) :: n) = true) (h : ∀ a, readByte ((k, v) :: m) a = readByte ((l, w) :: n) a) :
    ¬ k < l := by
  intro hkl
  obtain ⟨-, hl, hw, hn⟩ := (memWfFrom_cons ..).mp hn
  have hbelow := readByte_below ((l, w) :: n) l k ((memWfFrom_cons ..).mpr ⟨le_rfl, hl, hw, hn⟩) hkl
  rw [← h k, readByte_cons_self] at hbelow
  exact hv hbelow

/-- Canonical memories with a common first pair that read the same have rests that read the same. -/
theorem rests_read_same (k : Nat) (v : Byte) (m n : Memory) (hm : memWfFrom (k + 1) m = true)
    (hn : memWfFrom (k + 1) n = true) (h : ∀ a, readByte ((k, v) :: m) a = readByte ((k, v) :: n) a) (a : Nat) :
    readByte m a = readByte n a := by
  by_cases hak : k = a
  · subst hak
    rw [readByte_below m _ _ hm (Nat.lt_succ_self k), readByte_below n _ _ hn (Nat.lt_succ_self k)]
  · simpa [readByte, hak] using h a

/-- Memories canonical from an address on that read the same are equal. -/
theorem eq_of_reads_same (m : Memory) : ∀ (lo : Nat) (n : Memory), memWfFrom lo m = true → memWfFrom lo n = true →
    (∀ a, readByte m a = readByte n a) → m = n := by
  induction m with
  | nil =>
    intro lo n _ hn h
    cases n with
    | nil => rfl
    | cons d n =>
      obtain ⟨-, -, hw, -⟩ := (memWfFrom_cons ..).mp hn
      exact absurd ((h d.1).trans (readByte_cons_self d.1 d.2 n)).symm hw
  | cons c m ih =>
    intro lo n hm hn h
    obtain ⟨k, v⟩ := c
    obtain ⟨-, -, hv, hm'⟩ := (memWfFrom_cons ..).mp hm
    cases n with
    | nil => exact absurd ((readByte_cons_self k v m).symm.trans (h k)) hv
    | cons d n =>
      obtain ⟨l, w⟩ := d
      obtain ⟨-, -, hw, hn'⟩ := (memWfFrom_cons ..).mp hn
      obtain rfl : k = l := Nat.le_antisymm
        (Nat.not_lt.mp (not_lt_of_reads_same lo l k w v n m hw hm fun a => (h a).symm))
        (Nat.not_lt.mp (not_lt_of_reads_same lo k l v w m n hv hn h))
      obtain rfl : v = w := by simpa using h k
      rw [ih (k + 1) n hm' hn' (rests_read_same k v m n hm' hn' h)]

/-- Settles O55: the first pairs agree, since each memory reads as unlisted below its own first address, and so on down. -/
theorem canonicalMemoryIsUnique : Obligations.CanonicalMemoryIsUnique :=
  fun m n hm hn h => eq_of_reads_same m 0 n hm hn h

/-! ### What every step keeps -/

/-- Every byte of the Word at an aligned address has that address as its word address (R58). -/
theorem wordOfByte_of_mem_word (a : Word) (k : Nat) (ha : aligned a = true) (hlo : a.toNat ≤ k) (hhi : k ≤ a.toNat + 3) :
    wordOfByte k = a := by
  rw [aligned_iff] at ha
  have hk : k - k % 4 = a.toNat := by omega
  rw [wordOfByte, hk, BitVec.ofNat_toNat, BitVec.setWidth_eq]

/-- A memory with only bytes of mapped words has only such bytes after a Word is stored at a mapped address (R51, R55). -/
theorem inMap_of_mem_writeWord (map : List Region) (m : Memory) (a v : Word) (ha : aligned a = true)
    (hmap : inMap map a = true) (hm : ∀ c ∈ m, inMap map (wordOfByte c.1) = true) :
    ∀ c ∈ writeWord m a.toNat v, inMap map (wordOfByte c.1) = true := by
  intro c hc
  rcases mem_writeWord m a.toNat v c hc with hc | ⟨hlo, hhi⟩
  · exact hm c hc
  · rwa [wordOfByte_of_mem_word a c.1 ha hlo hhi]

/-- A committed instruction keeps memory canonical and in the map: at most one aligned mapped Word was stored. -/
theorem Footprint.keeps_memory_canonical {s t : State} (hp : Footprint s t) (hwf : memWf s.mem = true)
    (hin : s.memInMap) : memWf t.mem = true ∧ t.memInMap := by
  unfold State.memInMap
  rw [hp.memMap]
  rcases hp.mem with hmem | ⟨a, v, ha, hmap, hmem⟩
  · rw [hmem]
    exact ⟨hwf, hin⟩
  · rw [hmem]
    exact ⟨writeWord_wf s.mem a.toNat v hwf (aligned_room a ha), inMap_of_mem_writeWord s.memMap s.mem a v ha hmap hin⟩

/-- Settles O47: a raised condition leaves memory alone, and a committed instruction stores at most one mapped Word. -/
theorem stepKeepsMemoryCanonical : Obligations.StepKeepsMemoryCanonical := by
  intro s t hwf hin h
  obtain ⟨-, ⟨e, rfl, -⟩ | hp⟩ := stepWith_raised_or_committed encTable s t h
  · exact ⟨hwf, hin⟩
  · exact hp.keeps_memory_canonical hwf hin

/-- Settles O50: neither a raised condition nor a committed instruction has the run's parameters in its footprint. -/
theorem stepKeepsRunParameters : Obligations.StepKeepsRunParameters := by
  intro s t h
  obtain ⟨-, ⟨e, rfl, -⟩ | hp⟩ := stepWith_raised_or_committed encTable s t h
  · exact ⟨rfl, rfl⟩
  · exact ⟨hp.memMap, hp.endPc⟩

/-! ### Loads and stores -/

/-- Which byte an address reads after a Word is stored: the stored Word's, the lowest first, or as before (R58). -/
theorem readByte_writeWord (m : Memory) (a c : Nat) (v : Word) (h : memWf m = true) (ha : a + 3 < 2 ^ 32) :
    readByte (writeWord m a v) c =
      if a ≤ c ∧ c < a + 4 then v.extractLsb' (8 * (c - a)) 8 else readByte m c := by
  split
  case isTrue hc =>
    have hb := readByte_writeWord_eq m a (c - a) v h ha (by omega)
    rwa [Nat.add_sub_cancel' hc.1] at hb
  case isFalse hc => exact readByte_writeWord_ne m a c v (by omega)

/-- Which Word an aligned address reads after a Word is stored at an aligned address (R60). -/
theorem readWord_writeWord (m : Memory) (a b v : Word) (h : memWf m = true) (ha : aligned a = true)
    (hb : aligned b = true) :
    readWord (writeWord m a.toNat v) b.toNat = if b = a then v else readWord m b.toNat := by
  split
  case isTrue hba =>
    subst hba
    exact readWord_writeWord_eq m b.toNat v h (aligned_room b hb)
  case isFalse hba =>
    rw [aligned_iff] at ha hb
    have hne : b.toNat ≠ a.toNat := fun hn => hba (BitVec.eq_of_toNat_eq hn)
    exact readWord_writeWord_ne m a.toNat b.toNat v (by omega)

/-- A load of an accepted address gives the Word there (R54). -/
theorem memRead_of_accepts (s : State) (a : Word) (h : s.accepts a) : s.memRead a = .ok (readWord s.mem a.toNat) := by
  obtain ⟨-, -, hr⟩ | ⟨hbad, -⟩ := memRead_cases s a
  · exact hr
  · exact absurd ((accepts_iff s a).mp h) hbad

/-- A load of any other address raises `AddressError` with it (R54, R204). -/
theorem memRead_of_not_accepts (s : State) (a : Word) (h : ¬ s.accepts a) :
    s.memRead a = .error ⟨.addressError, a⟩ := by
  obtain ⟨ha, hm, -⟩ | ⟨-, hr⟩ := memRead_cases s a
  · exact absurd ((accepts_iff s a).mpr ⟨ha, hm⟩) h
  · exact hr

/-- A store at an accepted address is done (R55). -/
theorem memWrite_of_accepts (s : State) (a v : Word) (h : s.accepts a) : s.memWrite a v = .ok (s.setMem a v) := by
  obtain ⟨-, -, hr⟩ | ⟨hbad, -⟩ := memWrite_cases s a v
  · exact hr
  · exact absurd ((accepts_iff s a).mp h) hbad

/-- A store at any other address raises `AddressError` with it (R55, R204). -/
theorem memWrite_of_not_accepts (s : State) (a v : Word) (h : ¬ s.accepts a) :
    s.memWrite a v = .error ⟨.addressError, a⟩ := by
  obtain ⟨ha, hm, -⟩ | ⟨-, hr⟩ := memWrite_cases s a v
  · exact absurd ((accepts_iff s a).mpr ⟨ha, hm⟩) h
  · exact hr

/-- A load after a store at an accepted address: the Word stored there, any other load as before (R60). -/
theorem memRead_setMem (s : State) (a b v : Word) (hwf : memWf s.mem = true) (ha : s.accepts a) :
    (s.setMem a v).memRead b = if b = a then .ok v else s.memRead b := by
  obtain ⟨haligned, -⟩ := (accepts_iff s a).mp ha
  by_cases hb : s.accepts b
  · obtain ⟨hbaligned, -⟩ := (accepts_iff s b).mp hb
    rw [memRead_of_accepts (s.setMem a v) b hb, memRead_of_accepts s b hb, State.setMem_mem,
      readWord_writeWord s.mem a b v hwf haligned hbaligned]
    split <;> rfl
  · have hba : b ≠ a := fun hab => hb (hab ▸ ha)
    rw [if_neg hba, memRead_of_not_accepts s b hb]
    exact memRead_of_not_accepts (s.setMem a v) b hb

/-- Settles O53: an accepted store is the one of `memRead_setMem`. -/
theorem loadSeesTheLastStore : Obligations.LoadSeesTheLastStore := by
  intro s u a b v hwf h
  by_cases ha : s.accepts a
  · rw [memWrite_of_accepts s a v ha] at h
    cases h
    exact memRead_setMem s a b v hwf ha
  · rw [memWrite_of_not_accepts s a v ha] at h
    cases h

/-- `hold` where the effective address is accepted: the Word stored and `pc` moved on (R141). -/
theorem exec_hold_of_accepts (rt base : Fin 34) (offset : BitVec 16) (s : State)
    (h : s.accepts (s.slot base + offset.signExtend 32)) :
    exec (.hold rt.val offset base.val) s =
      .next ((s.setMem (s.slot base + offset.signExtend 32) (s.slot rt)).setPc (s.pc + 4#32)) := by
  rw [exec_hold, effectiveAddr_eq, memWrite_of_accepts s _ _ h, npc_eq]
  rfl

/-- `hold` at any other effective address latches `AddressError` with it and changes nothing else (R141, R209). -/
theorem exec_hold_of_not_accepts (rt base : Fin 34) (offset : BitVec 16) (s : State)
    (h : ¬ s.accepts (s.slot base + offset.signExtend 32)) :
    exec (.hold rt.val offset base.val) s =
      .next (s.latch .addressError (s.slot base + offset.signExtend 32)) := by
  rw [exec_hold, effectiveAddr_eq, memWrite_of_not_accepts s _ _ h]
  rfl

/-- Settles O19: the two ends of `hold`, and the bytes of the Word it stores. -/
theorem holdStoresAWord : Obligations.HoldStoresAWord := by
  refine ⟨decode_of_template ⟨.hold, 0xAC000000#32, 0xFC000000#32⟩ (by decide), fun rt base offset s hwf =>
    ⟨fun ha => ?_, exec_hold_of_not_accepts rt base offset s⟩⟩
  obtain ⟨haligned, -⟩ := (accepts_iff s _).mp ha
  exact ⟨_, exec_hold_of_accepts rt base offset s ha, rfl, fun a =>
    readByte_writeWord s.mem _ a (s.slot rt) hwf (aligned_room _ haligned)⟩

/-- A step from an unlatched state whose run has not ended is the instruction that the word at `pc` decodes to (R107). -/
theorem stepWith_of_decoded (T : List EncRow) (s : State) (w : Word) (i : Instr) (hf : s.fault = none)
    (he : s.endPc ≠ some s.pc) (hr : s.memRead s.pc = .ok w) (hd : decodeWith T w = .resolved i) :
    stepWith T s = exec i s := by
  simp [stepWith, fetchWith, hf, he, hr, hd]

/-- Settles O54: the fetch after the store is a load of the address stored to. -/
theorem storeIsSeenByTheNextFetch : Obligations.StoreIsSeenByTheNextFetch := by
  intro s t rt base offset i hwf hf ha he haddr hd h
  rw [exec_hold_of_accepts rt base offset s (haddr ▸ ha), haddr] at h
  cases h
  refine stepWith_of_decoded encTable _ (s.slot rt) i hf he ?_ hd
  have hread := memRead_setMem s (s.pc + 4#32) (s.pc + 4#32) (s.slot rt) hwf ha
  rwa [if_pos rfl] at hread

/-! ### Which instructions touch memory, HIGH, LOW and the draws -/

/-- Memory, HIGH, LOW and the draws are as before. -/
structure KeepsSpecials (s t : State) : Prop where
  mem   : t.mem = s.mem
  high  : t.slot 32 = s.slot 32
  low   : t.slot 33 = s.slot 33
  draws : drawsKept s t

namespace KeepsSpecials

variable {s t : State}

theorem refl (s : State) : KeepsSpecials s s := ⟨rfl, rfl, rfl, rfl, rfl⟩

theorem raise (s : State) (e : Raised) : KeepsSpecials s (s.raise e) := ⟨rfl, rfl, rfl, rfl, rfl⟩

theorem setPc (h : KeepsSpecials s t) (a : Word) : KeepsSpecials s (t.setPc a) := ⟨h.mem, h.high, h.low, h.draws⟩

theorem emit (h : KeepsSpecials s t) (e : Event) : KeepsSpecials s (t.emit e) := ⟨h.mem, h.high, h.low, h.draws⟩

/-- A write of one of `r0`..`r31` is none of HIGH and LOW (R21). -/
theorem setSlot (h : KeepsSpecials s t) {j : Fin 34} (hj : j.val ≤ 31) (v : Word) : KeepsSpecials s (t.setSlot j v) where
  mem := h.mem
  high := by rw [State.setSlot_slot, if_neg (by rintro rfl; exact absurd hj (by decide)), h.high]
  low := by rw [State.setSlot_slot, if_neg (by rintro rfl; exact absurd hj (by decide)), h.low]
  draws := h.draws

/-- HIGH and LOW are no board cells (R21, R23). -/
theorem mapBoard (h : KeepsSpecials s t) (f : Word → Word) : KeepsSpecials s (t.mapBoard f) where
  mem := h.mem
  high := by rw [State.mapBoard_slot, if_neg (by decide), h.high]
  low := by rw [State.mapBoard_slot, if_neg (by decide), h.low]
  draws := h.draws

/-- The checked end of an instruction whose destination is one of `r0`..`r31` (R120 to R122). -/
theorem of_checkedWrite {d : Fin 34} (hd : d.val ≤ 31) {ovf : Bool} {v : Word}
    (h : s.commit (s.checkedWrite d ovf v) = .next t) : KeepsSpecials s t := by
  obtain ⟨-, rfl⟩ | ⟨-, rfl⟩ := checkedWrite_cases s t d ovf v h
  · exact raise s _
  · exact ((refl s).setSlot hd v).setPc _

/-- A guarded transition keeps what its transition keeps (R185). -/
theorem of_guarded {u : State} {g : Bool} (hu : KeepsSpecials s u) (h : s.guarded g u = .next t) : KeepsSpecials s t := by
  obtain ⟨-, rfl⟩ | ⟨-, rfl⟩ := guarded_cases s u t g h
  · exact hu.setPc _
  · exact (refl s).setPc _

end KeepsSpecials

/-- A register operand of a word names one of the slots of `r0`..`r31` (R26). -/
theorem exists_slot_of_regFits {r : Int} (h : regFits r = true) : ∃ j : Fin 34, r = j.val ∧ j.val ≤ 31 := by
  obtain ⟨hlo, hhi⟩ := of_decide_eq_true h
  exact ⟨⟨r.toNat, by omega⟩, (Int.toNat_of_nonneg hlo).symm, by simp only; omega⟩

/-- The two register operands of a well-formed instruction name slots of `r0`..`r31` (R26). -/
theorem exists_two_slots {p q : Int} (h : (regFits p && regFits q) = true) :
    ∃ a b : Fin 34, p = a.val ∧ q = b.val ∧ a.val ≤ 31 ∧ b.val ≤ 31 := by
  obtain ⟨hp, hq⟩ := (Bool.and_eq_true _ _).mp h
  obtain ⟨a, ha, ha31⟩ := exists_slot_of_regFits hp
  obtain ⟨b, hb, hb31⟩ := exists_slot_of_regFits hq
  exact ⟨a, b, ha, hb, ha31, hb31⟩

/-- The three register operands of a well-formed instruction name slots of `r0`..`r31` (R26). -/
theorem exists_three_slots {p q r : Int} (h : (regFits p && regFits q && regFits r) = true) :
    ∃ a b c : Fin 34, p = a.val ∧ q = b.val ∧ r = c.val ∧ a.val ≤ 31 ∧ b.val ≤ 31 ∧ c.val ≤ 31 := by
  obtain ⟨hpq, hr⟩ := (Bool.and_eq_true _ _).mp h
  obtain ⟨a, b, ha, hb, ha31, hb31⟩ := exists_two_slots hpq
  obtain ⟨c, hc, hc31⟩ := exists_slot_of_regFits hr
  exact ⟨a, b, c, ha, hb, hc, ha31, hb31, hc31⟩

/-- An instruction of a word that is none of `hold`, `attack`, `delay` and `drop` keeps memory, HIGH, LOW and the draws:
it writes only `r0`..`r31`, `pc` and the history, or it raises. -/
theorem exec_keepsSpecials (i : Instr) (s t : State) (hw : i.wf = true)
    (hm : mnemonicOf i ∉ [Mnemonic.hold, .attack, .delay, .drop]) (h : exec i s = .next t) : KeepsSpecials s t := by
  have kept := KeepsSpecials.refl s
  cases i with
  | hold _ _ _ => simp [mnemonicOf] at hm
  | attack _ _ _ => simp [mnemonicOf] at hm
  | delay _ _ => simp [mnemonicOf] at hm
  | drop _ => simp [mnemonicOf] at hm
  | harddrop rt rs imm =>
    obtain ⟨d, a, rfl, rfl, hd, -⟩ := exists_two_slots hw
    exact .of_checkedWrite hd (exec_harddrop d a imm s ▸ h)
  | stack rd rs rt =>
    obtain ⟨d, a, b, rfl, rfl, rfl, hd, -⟩ := exists_three_slots hw
    exact .of_checkedWrite hd (exec_stack d a b s ▸ h)
  | garbage rd rs rt =>
    obtain ⟨d, a, b, rfl, rfl, rfl, hd, -⟩ := exists_three_slots hw
    exact .of_checkedWrite hd (exec_garbage d a b s ▸ h)
  | next rt offset base =>
    obtain ⟨d, b, rfl, rfl, hd, -⟩ := exists_two_slots hw
    rw [exec_next] at h
    rcases memRead_cases s (effectiveAddr (s.slot b) offset) with ⟨-, -, hr⟩ | ⟨-, hr⟩
    · rw [hr] at h
      cases h
      exact (kept.setSlot hd _).setPc _
    · rw [hr] at h
      cases h
      exact .raise s _
  | shift target =>
    cases h
    exact kept.setPc _
  | lineclear rs rt offset =>
    obtain ⟨a, b, rfl, rfl, -⟩ := exists_two_slots hw
    cases (exec_lineclear a b offset s).symm.trans h
    exact kept.setPc _
  | nonclear rs rt offset =>
    obtain ⟨a, b, rfl, rfl, -⟩ := exists_two_slots hw
    cases (exec_nonclear a b offset s).symm.trans h
    exact kept.setPc _
  | ghostpiece rt rs imm =>
    obtain ⟨d, a, rfl, rfl, hd, -⟩ := exists_two_slots hw
    cases (exec_ghostpiece d a imm s).symm.trans h
    exact ((kept.setSlot hd _).emit _).setPc _
  | rotate rs rt =>
    obtain ⟨a, b, rfl, rfl, ha, hb⟩ := exists_two_slots hw
    cases (exec_rotate a b s).symm.trans h
    exact ((kept.setSlot ha _).setSlot hb _).setPc _
  | slowgravity rt rs imm =>
    obtain ⟨d, a, rfl, rfl, hd, -⟩ := exists_two_slots hw
    cases (exec_slowgravity d a imm s).symm.trans h
    exact (kept.setSlot hd _).setPc _
  | combo imm =>
    cases h
    exact (kept.mapBoard _).setPc _
  | downstack => exact .of_guarded ((kept.mapBoard _).setSlot (by decide) _) (exec_downstack s ▸ h)
  | topout => exact .of_guarded (((kept.mapBoard _).setSlot (by decide) _).emit _) (exec_topout s ▸ h)
  | allclear => exact .of_guarded ((kept.setSlot (by decide) _).emit _) (exec_allclear s ▸ h)
  | tetris => exact .of_guarded (((kept.mapBoard _).setSlot (by decide) _).emit _) (exec_tetris s ▸ h)
  | viewboard =>
    cases h
    exact (kept.emit _).setPc _

/-- Settles O52: `hold`, `attack`, `delay` and `drop` one by one, every other instruction by `exec_keepsSpecials`. -/
theorem whichInstructionsTouchWhat : Obligations.WhichInstructionsTouchWhat := by
  intro i s t hw h
  cases i with
  | hold rt offset base =>
    obtain ⟨d, b, rfl, rfl, -⟩ := exists_two_slots hw
    by_cases ha : s.accepts (s.slot b + offset.signExtend 32)
    · cases (exec_hold_of_accepts d b offset s ha).symm.trans h
      exact ⟨fun hne => absurd rfl (hne _ _ _), fun _ _ => ⟨rfl, rfl⟩, fun _ => ⟨rfl, rfl⟩⟩
    · cases (exec_hold_of_not_accepts d b offset s ha).symm.trans h
      exact ⟨fun _ => rfl, fun _ _ => ⟨rfl, rfl⟩, fun _ => ⟨rfl, rfl⟩⟩
  | attack rd rs rt =>
    obtain ⟨d, a, b, rfl, rfl, rfl, -⟩ := exists_three_slots hw
    cases (exec_attack d a b s).symm.trans h
    exact ⟨fun _ => rfl, fun hne _ => absurd rfl (hne _ _ _), fun _ => ⟨rfl, rfl⟩⟩
  | delay rs rt =>
    obtain ⟨a, b, rfl, rfl, -⟩ := exists_two_slots hw
    rw [exec_delay] at h
    split at h <;> cases h <;> exact ⟨fun _ => rfl, fun _ hne => absurd rfl (hne _ _), fun _ => ⟨rfl, rfl⟩⟩
  | drop rd =>
    obtain ⟨d, rfl, hd⟩ := exists_slot_of_regFits hw
    cases (exec_drop d s).symm.trans h
    have kept := ((KeepsSpecials.refl s.consumeDraw).setSlot hd (wrap32 ((s.slot d).toInt + s.draw))).setPc s.npc
    exact ⟨fun _ => kept.mem, fun _ _ => ⟨kept.high, kept.low⟩, fun hne => absurd rfl (hne _)⟩
  | _ =>
    have kept := exec_keepsSpecials _ s t hw (by simp [mnemonicOf]) h
    exact ⟨fun _ => kept.mem, fun _ _ => ⟨kept.high, kept.low⟩, fun _ => kept.draws⟩

end Sys2Proof.Machine

/-! PROOFS. Statements of the family 30_encoding: the round trip of encoder and decoder, the unambiguous table, and the
illegal words. -/
namespace Sys2Proof.Machine

/-! ### Rows of a table and the words that match them -/

theorem mem_allMnemonics (m : Mnemonic) : m ∈ allMnemonics := by
  cases m <;> decide

/-- What a table of R91 is: twenty rows, one for each mnemonic, each sound, and together unambiguous. -/
theorem tableOk_iff (T : List EncRow) :
    tableOk T = true ↔ T.length = 20 ∧ (∀ m, ∃ r ∈ T, r.mnemonic = m) ∧ (∀ r ∈ T, rowOk r = true) ∧
      tableUnambiguous T = true := by
  simp [tableOk, mem_allMnemonics, and_assoc]

/-- A sound row's match is 0 outside its mask (R73). -/
theorem pattern_masked_of_rowOk (r : EncRow) (h : rowOk r = true) : r.pattern &&& r.mask = r.pattern := by
  simp only [rowOk, Bool.and_eq_true, beq_iff_eq] at h
  exact h.1

/-- A table with a row of every mnemonic gives every instruction a word: the match of such a row with the operand
bits. -/
theorem encodeWith_of_covers (T : List EncRow) (hT : ∀ m, ∃ r ∈ T, r.mnemonic = m) (i : Instr) :
    ∃ r ∈ T, r.mnemonic = mnemonicOf i ∧ encodeWith T i = some (r.pattern ||| operandBits i) := by
  unfold encodeWith
  split
  case h_1 r hr => exact ⟨r, List.mem_of_find?_eq_some hr, by simpa using List.find?_some hr, rfl⟩
  case h_2 hnone =>
    obtain ⟨r, hr, hm⟩ := hT (mnemonicOf i)
    exact absurd hm (by simpa using List.find?_eq_none.mp hnone r hr)

/-- An instruction's word matches the row it was made from: the operand bits are 0 wherever the class fixes a bit
(R73). -/
theorem rowHits_word (r : EncRow) (i : Instr) (hp : r.pattern &&& r.mask = r.pattern)
    (hm : r.mask = classMask (classOf (mnemonicOf i))) : rowHits r (r.pattern ||| operandBits i) = true := by
  rw [rowHits, beq_iff_eq, or_masked, hp, hm, operandBits_fixed, BitVec.or_zero]

/-- Settles O3: the word hits the row it was made from, which is the row the decoder finds, and the extractor reads its
operands back. -/
theorem roundTripUnderAnyTable : Obligations.RoundTripUnderAnyTable := by
  intro T hT hmask i hw
  obtain ⟨-, hcovers, hok, hunamb⟩ := (tableOk_iff T).mp hT
  obtain ⟨r, hr, hmn, henc⟩ := encodeWith_of_covers T hcovers i
  have hp := pattern_masked_of_rowOk r (hok r hr)
  have hm : r.mask = classMask (classOf (mnemonicOf i)) := hmn ▸ hmask r hr
  refine ⟨_, henc, ?_⟩
  rw [decodeWith_of_hit T hunamb r hr _ (rowHits_word r i hp hm), hmn, resolve_of_operandBits i _ hw (hm ▸ hp)]

theorem encTable_mask (r : EncRow) (hr : r ∈ encTable) : r.mask = classMask (classOf r.mnemonic) := by
  revert r
  decide

/-- Settles O1: the table of R85 is one of those of O3. -/
theorem decodeOfEncode : Obligations.DecodeOfEncode := by
  intro i hw
  obtain ⟨w, henc, hdec⟩ := roundTripUnderAnyTable encTable encTable_ok encTable_mask i hw
  rw [encode, henc]
  exact hdec

/-! ### The word of a decoded instruction -/

/-- An extracted index goes back into a field as the bits it was read from (R72). -/
@[simp] theorem regField_natCast_toNat (v : BitVec 5) : regField (v.toNat : Int) = v := by
  simp [regField]

/-- A field of a word, put back where it was read from, is the word under the field's bits. -/
theorem extractLsb'_shifted_back (w : Word) (a n : Nat) :
    (w.extractLsb' a n).setWidth 32 <<< a = w &&& (BitVec.allOnes n).setWidth 32 <<< a := by
  apply BitVec.eq_of_getLsbD_eq
  intro i hi
  by_cases ha : i < a
  · simp [ha]
  · have hback : a + (i - a) = i := by omega
    simp [ha, hi, hback, Bool.and_comm]

theorem putRs_rsOf (w : Word) : putRs (rsOf w) = w &&& 0x03E00000#32 := by
  rw [putRs, rsOf, regField_natCast_toNat]
  exact extractLsb'_shifted_back w 21 5

theorem putRt_rtOf (w : Word) : putRt (rtOf w) = w &&& 0x001F0000#32 := by
  rw [putRt, rtOf, regField_natCast_toNat]
  exact extractLsb'_shifted_back w 16 5

theorem putRd_rdOf (w : Word) : putRd (rdOf w) = w &&& 0x0000F800#32 := by
  rw [putRd, rdOf, regField_natCast_toNat]
  exact extractLsb'_shifted_back w 11 5

theorem putImm_immOf (w : Word) : putImm (immOf w) = w &&& 0x0000FFFF#32 := by
  rw [putImm, immOf, ← BitVec.shiftLeft_zero (BitVec.setWidth 32 _)]
  exact extractLsb'_shifted_back w 0 16

theorem putTarget_targetOf (w : Word) : putTarget (targetOf w) = w &&& 0x03FFFFFF#32 := by
  rw [putTarget, targetOf, ← BitVec.shiftLeft_zero (BitVec.setWidth 32 _)]
  exact extractLsb'_shifted_back w 0 26

/-- Two parts of a word laid together are the word under both masks. -/
theorem and_or_and (w m n : Word) : w &&& m ||| w &&& n = w &&& (m ||| n) := by
  rw [BitVec.and_comm w, BitVec.and_comm w, BitVec.and_comm w, or_masked]

/-- The operand bits of what the extractor reads from a word are the word's own bits outside the class's mask. -/
theorem operandBits_resolve (m : Mnemonic) (w : Word) :
    operandBits (resolve m w) = w &&& ~~~classMask (classOf m) := by
  cases m <;> simp [resolve, operandBits, classOf, classMask, layoutI, layoutR3, layoutRR, putRs_rsOf, putRt_rtOf,
    putRd_rdOf, putImm_immOf, putTarget_targetOf, and_or_and]

theorem find?_mnemonic_of_mem_encTable (r : EncRow) (hr : r ∈ encTable) :
    encTable.find? (fun q => q.mnemonic == r.mnemonic) = some r := by
  revert r
  decide

/-- Settles O2: the fixed bits of the word are the row's match, the others are the operand bits of what was read. -/
theorem encodeOfDecode : Obligations.EncodeOfDecode := by
  intro w i h
  refine ⟨decode_wf w i h, ?_⟩
  obtain ⟨r, hr, hhit, rfl⟩ := decodeWith_resolved encTable w i h
  have hword : encodeWith encTable (resolve r.mnemonic w) =
      some (r.pattern ||| operandBits (resolve r.mnemonic w)) := by
    rw [encodeWith, mnemonicOf_resolve, find?_mnemonic_of_mem_encTable r hr]
  rw [encode, hword, Option.getD_some, operandBits_resolve, ← encTable_mask r hr, ← beq_iff_eq.mp hhit, and_or_and,
    BitVec.or_not_self, BitVec.and_allOnes]

/-! ### No word matches two rows -/

theorem rowsDiffer_iff (a b : EncRow) :
    rowsDiffer a b = true ↔ (a.pattern ^^^ b.pattern) &&& a.mask &&& b.mask ≠ 0#32 := by
  simp [rowsDiffer]

theorem rowsDiffer_symm (a b : EncRow) (h : rowsDiffer a b = true) : rowsDiffer b a = true := by
  rwa [rowsDiffer_iff, BitVec.xor_comm, BitVec.and_assoc, BitVec.and_comm b.mask, ← BitVec.and_assoc,
    ← rowsDiffer_iff]

/-- Rows of a table of R74 that one word matches are one row: two different ones would differ in a bit both fix. -/
theorem eq_of_rowHits (T : List EncRow) (hT : T.Pairwise fun a b => rowsDiffer a b = true) (a b : EncRow) (w : Word)
    (ha : a ∈ T) (hb : b ∈ T) (hwa : rowHits a w = true) (hwb : rowHits b w = true) : a = b := by
  have hsymm : Std.Symm fun a b => rowsDiffer a b = true := ⟨rowsDiffer_symm⟩
  by_contra hne
  have hdiffer : rowsDiffer a b = true := hT.forall ha hb hne
  simp [rowsDiffer_of_hits a b w hwa hwb] at hdiffer

/-- Settles O4: R74's consequence for any table is `eq_of_rowHits`; the table of R85 is unambiguous. -/
theorem noWordMatchesTwoRows : Obligations.NoWordMatchesTwoRows := by
  simp only [Obligations.NoWordMatchesTwoRows, ← rowsDiffer_iff]
  exact ⟨fun T hT a ha b hb w hwa hwb => eq_of_rowHits T hT a b w ha hb (beq_iff_eq.mpr hwa) (beq_iff_eq.mpr hwb),
    tableUnambiguous_pairwise encTable encTable_unambiguous⟩

/-! ### Unassigned encodings -/

/-- Every word of a row has the value `v` in its `n` bits from bit `a` (R73). -/
def rowFixes (r : EncRow) (a n : Nat) (v : BitVec n) : Bool :=
  r.mask.extractLsb' a n == BitVec.allOnes n && r.pattern.extractLsb' a n == v

theorem field_of_rowFixes {r : EncRow} {w : Word} {a n : Nat} {v : BitVec n} (hw : rowHits r w = true)
    (h : rowFixes r a n v = true) : w.extractLsb' a n = v := by
  simp only [rowFixes, Bool.and_eq_true, beq_iff_eq] at h
  obtain ⟨hmask, hv⟩ := h
  exact (field_of_hit w r.pattern r.mask a n (beq_iff_eq.mp hw) hmask).trans hv

/-- The opcodes of R86. -/
theorem opcode_of_mem_encTable : ∀ r ∈ encTable,
    ∃ op ∈ [0x00#6, 0x02#6, 0x04#6, 0x05#6, 0x08#6, 0x18#6, 0x19#6, 0x1A#6, 0x1C#6, 0x1F#6, 0x23#6, 0x2B#6],
      rowFixes r 26 6 op = true := by
  decide

/-- A word is illegal where no row that fixes the word's opcode matches it (R87). -/
theorem decode_illegal_of_opcode (w : Word)
    (h : ∀ r ∈ encTable, rowFixes r 26 6 (w.extractLsb' 26 6) = true → ¬ rowHits r w = true) :
    decode w = .illegal w := by
  refine decodeWith_illegal encTable w fun r hr => Bool.eq_false_iff.mpr fun hw => ?_
  obtain ⟨op, -, hfix⟩ := opcode_of_mem_encTable r hr
  exact h r hr (field_of_rowFixes hw hfix ▸ hfix) hw

/-- The rows under opcode 0x00: `stack`, `garbage` and `delay` (R86). -/
theorem rows_of_opcode_00 : ∀ r ∈ encTable, rowFixes r 26 6 0x00#6 = true →
    rowFixes r 0 11 0x020#11 = true ∨ rowFixes r 0 11 0x022#11 = true ∨ rowFixes r 0 16 0x001A#16 = true := by
  decide

/-- The row under opcode 0x1A: `combo` (R86). -/
theorem rows_of_opcode_1A : ∀ r ∈ encTable, rowFixes r 26 6 0x1A#6 = true → rowFixes r 16 10 0#10 = true := by
  decide

/-- The row under opcode 0x1C: `attack` (R86). -/
theorem rows_of_opcode_1C : ∀ r ∈ encTable, rowFixes r 26 6 0x1C#6 = true → rowFixes r 0 11 0x002#11 = true := by
  decide

/-- The rows under opcode 0x1F: `rotate`, `drop` and the five board instructions (R86). -/
theorem rows_of_opcode_1F : ∀ r ∈ encTable, rowFixes r 26 6 0x1F#6 = true →
    rowFixes r 0 16 0#16 = true ∨ (rowFixes r 16 10 0#10 = true ∧ rowFixes r 0 11 0x001#11 = true) ∨
    (rowFixes r 16 10 0#10 = true ∧ rowFixes r 0 16 (r.pattern.extractLsb' 0 16) = true ∧
      r.pattern.extractLsb' 0 16 ∈ [0x10#16, 0x11#16, 0x12#16, 0x13#16, 0x14#16]) := by
  decide

/-- Settles O6: a row that matched the word would fix its opcode and the fields of one of the row's families. -/
theorem unassignedEncodingsAreIllegal : Obligations.UnassignedEncodingsAreIllegal := by
  refine fun w => ⟨fun hop => ?unassigned, fun hop h20 h22 h1A => ?op00, fun hop hz => ?op1A, fun hop h02 => ?op1C,
    fun hop hrotate hdrop hboard => ?op1F⟩ <;> refine decode_illegal_of_opcode w fun r hr hrow hw => ?_
  case unassigned =>
    obtain ⟨op, hmem, hfix⟩ := opcode_of_mem_encTable r hr
    exact hop (field_of_rowFixes hw hfix ▸ hmem)
  case op00 =>
    rcases rows_of_opcode_00 r hr (hop ▸ hrow) with h | h | h
    · exact h20 (field_of_rowFixes hw h)
    · exact h22 (field_of_rowFixes hw h)
    · exact h1A (field_of_rowFixes hw h)
  case op1A => exact hz (field_of_rowFixes hw (rows_of_opcode_1A r hr (hop ▸ hrow)))
  case op1C => exact h02 (field_of_rowFixes hw (rows_of_opcode_1C r hr (hop ▸ hrow)))
  case op1F =>
    rcases rows_of_opcode_1F r hr (hop ▸ hrow) with h | ⟨hz, h⟩ | ⟨hz, h, hmem⟩
    · exact hrotate (field_of_rowFixes hw h)
    · exact hdrop ⟨field_of_rowFixes hw hz, field_of_rowFixes hw h⟩
    · exact hboard ⟨field_of_rowFixes hw hz, field_of_rowFixes hw h ▸ hmem⟩

/-! ### Fetching an illegal word -/

/-- A step from an unlatched state whose run has not ended raises `UnknownInstruction` on an illegal word at `pc`
(R107, R208). -/
theorem stepWith_of_illegal (T : List EncRow) (s : State) (w : Word) (hf : s.fault = none) (he : s.endPc ≠ some s.pc)
    (hr : s.memRead s.pc = .ok w) (hd : decodeWith T w = .illegal w) :
    stepWith T s = .next (s.raise ⟨.unknownInstruction, w⟩) := by
  simp [stepWith, fetchWith, hf, he, hr, hd]

/-- Settles O9: the fetch succeeds, and a word that matches no row is illegal. -/
theorem illegalWordRaisesUnknownInstruction : Obligations.IllegalWordRaisesUnknownInstruction := by
  intro s w hf he ha hw hno
  have hread : s.memRead s.pc = .ok w := hw ▸ memRead_of_accepts s s.pc ha
  have hillegal : decodeWith encTable w = .illegal w :=
    decodeWith_illegal encTable w fun r hr => beq_eq_false_iff_ne.mpr (hno r hr)
  exact stepWith_of_illegal encTable s w hf he hread hillegal

/-! ### Words of the spec -/

/-- Settles O5: each of the six words matches its row of R85, whose operands are then read off; the all-zero and the
all-one word are of the unassigned encodings of O6. -/
theorem decodeOfSpecWords : Obligations.DecodeOfSpecWords := by
  obtain ⟨-, hop00, -⟩ := unassignedEncodingsAreIllegal 0x00000000#32
  obtain ⟨hunassigned, -⟩ := unassignedEncodingsAreIllegal 0xFFFFFFFF#32
  exact ⟨
    decode_of_template ⟨.harddrop, 0x20000000#32, 0xFC000000#32⟩ (by decide) _ (by decide),
    decode_of_template ⟨.garbage, 0x00000022#32, 0xFC0007FF#32⟩ (by decide) _ (by decide),
    decode_of_template ⟨.next, 0x8C000000#32, 0xFC000000#32⟩ (by decide) _ (by decide),
    decode_of_template ⟨.nonclear, 0x14000000#32, 0xFC000000#32⟩ (by decide) _ (by decide),
    decode_of_template ⟨.drop, 0x7C000001#32, 0xFFFF07FF#32⟩ (by decide) _ (by decide),
    decode_of_template ⟨.tetris, 0x7C000013#32, 0xFFFFFFFF#32⟩ (by decide) _ (by decide),
    hop00 (by decide) (by decide) (by decide) (by decide), hunassigned (by decide)⟩

end Sys2Proof.Machine

/-! PROOFS. Statements of the family 40_dispatch: what a step does from each kind of state, and that a raised condition
changes the latch alone. -/
namespace Sys2Proof.Machine

/-! ### Raised conditions -/

/-- From an unlatched state, a latched record is the one raised: nothing else changed and it names the old `pc` (R209);
a committed instruction keeps the empty latch (R103). -/
theorem latch_alone_of_raised_or_committed {s t : State} (hs : s.fault = none)
    (h : (∃ e, t = s.raise e) ∨ Footprint s t) (r : FaultRecord) (hr : t.fault = some r) :
    t = { s with fault := some r } ∧ r.pc = s.pc := by
  rcases h with ⟨e, rfl⟩ | hp
  · cases hr
    exact ⟨rfl, rfl⟩
  · rw [hp.fault, hs] at hr
    cases hr

/-- Settles O12: a step that answers a next state and an instruction both either raised or committed. -/
theorem faultsArePrecise : Obligations.FaultsArePrecise := by
  refine ⟨fun s t h => ?step, fun i s t hs h => ?instruction⟩
  case step =>
    obtain ⟨hs, hrc⟩ := stepWith_raised_or_committed encTable s t h
    exact latch_alone_of_raised_or_committed hs (hrc.imp_left fun ⟨e, ht, _⟩ => ⟨e, ht⟩)
  case instruction =>
    exact latch_alone_of_raised_or_committed hs ((exec_cases i s t h).imp_left fun ⟨e, ht, _⟩ => ⟨e, ht⟩)

/-! ### The step from each kind of state -/

/-- A latched state has no step, under any table (R109). -/
theorem stepWith_of_latched (T : List EncRow) (s : State) (r : FaultRecord) (hf : s.fault = some r) :
    stepWith T s = .fault (.latched r) := by
  simp [stepWith, fetchWith, hf]

/-- The run ends at `END_PC` before the fetch, under any table (R110). -/
theorem stepWith_of_endPc (T : List EncRow) (s : State) (hf : s.fault = none) (he : s.endPc = some s.pc) :
    stepWith T s = .fault .runEnded := by
  simp [stepWith, fetchWith, hf, he]

/-- A step from an unlatched state whose run has not ended raises what its fetch raises (R106, R107). -/
theorem stepWith_of_fetch_error (T : List EncRow) (s : State) (e : Raised) (hf : s.fault = none)
    (he : s.endPc ≠ some s.pc) (hr : s.memRead s.pc = .error e) : stepWith T s = .next (s.raise e) := by
  simp [stepWith, fetchWith, hf, he, hr]

/-- Settles O7: the fetch of an accepted `pc` succeeds, and the word there decodes. -/
theorem stepRunsTheDecodedInstruction : Obligations.StepRunsTheDecodedInstruction := by
  intro s i hf he ha
  have run : ∀ T : List EncRow, decodeWith T (readWord s.mem s.pc.toNat) = .resolved i → stepWith T s = exec i s :=
    fun T => stepWith_of_decoded T s _ i hf he (memRead_of_accepts s s.pc ha)
  exact ⟨run encTable, run⟩

/-- Settles O8: the fetch is a load of `pc`, which raises `AddressError` with it. -/
theorem fetchFromBadPcRaisesAddressError : Obligations.FetchFromBadPcRaisesAddressError :=
  fun s hf he hbad => stepWith_of_fetch_error encTable s _ hf he (memRead_of_not_accepts s s.pc hbad)

/-- Settles O10: the table of R85 is one of those of `stepWith_of_latched`. -/
theorem noStepFromALatchedState : Obligations.NoStepFromALatchedState :=
  stepWith_of_latched encTable

/-- Settles O11: the table of R85 is one of those of `stepWith_of_endPc`. -/
theorem runEndsAtEndPc : Obligations.RunEndsAtEndPc :=
  stepWith_of_endPc encTable

end Sys2Proof.Machine

/-! PROOFS. Statements of the family 41_arithmetic: the overflow predicates, the five arithmetic instructions, and the
frames of the instructions that write registers alone. -/
namespace Sys2Proof.Machine

/-! ### The overflow predicates -/

/-- `add_ovf` (R119) is the library's signed overflow of a sum. -/
theorem addOvf_eq_saddOverflow (a b : Word) : addOvf a b = a.saddOverflow b := by
  rw [addOvf, addWrap_eq, BitVec.saddOverflow_eq, bne]

/-- `sub_ovf` (R119) is the library's signed overflow of a difference. -/
theorem subOvf_eq_ssubOverflow (a b : Word) : subOvf a b = a.ssubOverflow b := by
  rw [subOvf, subWrap_eq, BitVec.ssubOverflow_eq]
  cases a.msb <;> cases b.msb <;> simp

/-- `add_ovf` holds exactly when the exact sum does not fit (R119). -/
theorem addOvf_iff (a b : Word) : addOvf a b = true ↔ ¬ fitsWord (a.toInt + b.toInt) := by
  rw [addOvf_eq_saddOverflow, BitVec.saddOverflow, Bool.or_eq_true, decide_eq_true_eq, decide_eq_true_eq, fitsWord]
  omega

/-- `sub_ovf` holds exactly when the exact difference does not fit (R119). -/
theorem subOvf_iff (a b : Word) : subOvf a b = true ↔ ¬ fitsWord (a.toInt - b.toInt) := by
  rw [subOvf_eq_ssubOverflow, BitVec.ssubOverflow, Bool.or_eq_true, decide_eq_true_eq, decide_eq_true_eq, fitsWord]
  omega

/-- Settles O35: the sign bit is bit 31, and each predicate is the library's signed overflow. -/
theorem overflowPredicatesAreExact : Obligations.OverflowPredicatesAreExact := by
  refine fun a b => ⟨?add, ?sub, addOvf_iff a b, subOvf_iff a b⟩
  case add => simp [addOvf, addWrap_eq, BitVec.msb_eq_getLsbD_last]
  case sub => simp [subOvf, subWrap_eq, BitVec.msb_eq_getLsbD_last]

/-! ### The checked instructions -/

/-- The checked end of R120 to R122 where the overflow condition says that the exact result `x` does not fit: the
result is written and `pc` moves on, or `ArithmeticOverflow` is latched and nothing else changes. -/
theorem commit_checkedWrite (s : State) (d : Fin 34) (ovf : Bool) (v : Word) (x : Int)
    (hovf : ovf = true ↔ ¬ fitsWord x) :
    (fitsWord x → s.commit (s.checkedWrite d ovf v) = .next { s with regs := s.regs.set d.val v, pc := s.pc + 4#32 }) ∧
    (¬ fitsWord x → s.commit (s.checkedWrite d ovf v) = .next (s.latch .arithmeticOverflow 0#32)) := by
  refine ⟨fun hfits => ?_, fun hfits => ?_⟩
  · have hno : ¬ ovf = true := fun h => hovf.mp h hfits
    rw [State.checkedWrite, if_neg hno, npc_eq]
    rfl
  · rw [State.checkedWrite, if_pos (hovf.mpr hfits)]
    rfl

/-- Settles O13: `harddrop` ends checked, with the exact sum of `rs` and the sign-extended immediate. -/
theorem harddropAddsImmediate : Obligations.HarddropAddsImmediate := by
  refine ⟨decode_of_template ⟨.harddrop, 0x20000000#32, 0xFC000000#32⟩ (by decide), fun rt rs imm s => ?_⟩
  rw [exec_harddrop, ← sext16_toInt]
  exact commit_checkedWrite s rt _ _ _ (addOvf_iff _ _)

/-- Settles O14: `stack` ends checked, with the exact sum of `rs` and `rt`. -/
theorem stackAddsRegisters : Obligations.StackAddsRegisters := by
  refine ⟨decode_of_template ⟨.stack, 0x00000020#32, 0xFC0007FF#32⟩ (by decide), fun rd rs rt s => ?_⟩
  rw [exec_stack, addWrap_eq]
  exact commit_checkedWrite s rd _ _ _ (addOvf_iff _ _)

/-- Settles O15: `garbage` ends checked, with the exact difference of `rs` and `rt`. -/
theorem garbageSubtractsRegisters : Obligations.GarbageSubtractsRegisters := by
  refine ⟨decode_of_template ⟨.garbage, 0x00000022#32, 0xFC0007FF#32⟩ (by decide), fun rd rs rt s => ?_⟩
  rw [exec_garbage, subWrap_eq]
  exact commit_checkedWrite s rd _ _ _ (subOvf_iff _ _)

/-! ### Frames of the instructions that write registers alone -/

/-- The slots named, and `pc`, may differ; all else is as before. -/
structure RegistersOnly (W : List Int) (s t : State) : Prop where
  slots : slotsKeptBut W s t
  mem   : t.mem = s.mem
  out   : outputKept s t
  draws : drawsKept s t
  run   : runKept s t
  fault : t.fault = s.fault

namespace RegistersOnly

variable {W : List Int} {s t : State}

theorem refl (W : List Int) (s : State) : RegistersOnly W s s := ⟨fun _ _ => rfl, rfl, rfl, ⟨rfl, rfl⟩, ⟨rfl, rfl⟩, rfl⟩

theorem setPc (h : RegistersOnly W s t) (a : Word) : RegistersOnly W s (t.setPc a) :=
  ⟨(slotsKeptBut_setPc W s t a).mpr h.slots, h.mem, h.out, h.draws, h.run, h.fault⟩

theorem setSlot (h : RegistersOnly W s t) {j : Fin 34} (hj : (j.val : Int) ∈ W) (v : Word) :
    RegistersOnly W s (t.setSlot j v) where
  slots k hk := by
    have hjk : j ≠ k := fun hjk => hk (hjk ▸ hj)
    rw [State.setSlot_slot, if_neg hjk, h.slots k hk]
  mem := h.mem
  out := h.out
  draws := h.draws
  run := h.run
  fault := h.fault

end RegistersOnly

/-- The state a handler succeeds with, where it succeeds, differs in the slots named and `pc` alone. -/
def OkRegistersOnly (W : List Int) (s : State) (r : Except Raised State) : Prop :=
  ∀ t, r = .ok t → RegistersOnly W s t

namespace OkRegistersOnly

variable {W : List Int} {s : State}

theorem ok {t : State} (h : RegistersOnly W s t) : OkRegistersOnly W s (.ok t) := fun _ ht => Except.ok.inj ht ▸ h

/-- After an access the rest of a handler runs only where the access succeeded (R207). -/
theorem bind {α : Type} {x : Except Raised α} {f : α → Except Raised State}
    (h : ∀ a, x = .ok a → OkRegistersOnly W s (f a)) : OkRegistersOnly W s (x >>= f) := by
  cases x with
  | ok a => exact h a rfl
  | error e => exact fun _ ht => nomatch ht

/-- One result written to a slot, and `pc` moved on. -/
theorem result {d : Fin 34} (hd : (d.val : Int) ∈ W) (v : Word) :
    OkRegistersOnly W s (.ok ((s.setSlot d v).setPc s.npc)) :=
  ok (((RegistersOnly.refl W s).setSlot hd v).setPc _)

/-- The checked end of R120 to R122. -/
theorem checkedWrite {d : Fin 34} (hd : (d.val : Int) ∈ W) (ovf : Bool) (v : Word) :
    OkRegistersOnly W s (s.checkedWrite d ovf v) := by
  cases ovf with
  | true => exact fun _ ht => nomatch ht
  | false => exact result hd v

end OkRegistersOnly

/-- The frame of an instruction whose handler changes registers alone: a raised condition changes the latch alone
(R103, R209). -/
theorem frame_of_commit {W : List Int} {s t : State} {r : Except Raised State} (h : s.commit r = .next t)
    (hr : OkRegistersOnly W s r) :
    slotsKeptBut W s t ∧ memoryKept s t ∧ outputKept s t ∧ drawsKept s t ∧ runKept s t ∧ latchKeptOrTaken s t := by
  obtain hok | ⟨e, -, rfl⟩ := commit_next s t r h
  · obtain ⟨hslots, hmem, hout, hdraws, hrun, hfault⟩ := hr t hok
    exact ⟨hslots, fun a => by rw [hmem], hout, hdraws, hrun, .inl hfault⟩
  · exact ⟨fun _ _ => rfl, fun _ => rfl, rfl, ⟨rfl, rfl⟩, ⟨rfl, rfl⟩, latchKeptOrTaken_raise s e⟩

/-- The slot that an index names is one of those listed where the index is (R24). -/
theorem val_mem_of_regSlot_ok {i : Int} {j : Fin 34} {W : List Int} (h : regSlot i = .ok j) (hi : i ∈ W) :
    (j.val : Int) ∈ W := by
  obtain ⟨k, rfl, hk⟩ | ⟨-, hbad⟩ := regSlot_cases i
  · cases hk.symm.trans h
    exact hi
  · cases hbad.symm.trans h

/-- Settles O40: a handler of the five that succeeds wrote one slot, that of its destination. -/
theorem frameOfOneDestination : Obligations.FrameOfOneDestination := by
  intro s t i d hi h
  have dest {j : Fin 34} (hj : regSlot d = .ok j) : (j.val : Int) ∈ [d] := val_mem_of_regSlot_ok hj List.mem_cons_self
  obtain ⟨rs, imm, rfl⟩ | ⟨rs, rt, rfl⟩ | ⟨rs, rt, rfl⟩ | ⟨rs, imm, rfl⟩ | ⟨offset, base, rfl⟩ := hi
  · exact frame_of_commit h (.bind fun _ _ => .bind fun _ hd => .checkedWrite (dest hd) _ _)
  · exact frame_of_commit h (.bind fun _ _ => .bind fun _ _ => .bind fun _ hd => .checkedWrite (dest hd) _ _)
  · exact frame_of_commit h (.bind fun _ _ => .bind fun _ _ => .bind fun _ hd => .checkedWrite (dest hd) _ _)
  · exact frame_of_commit h (.bind fun _ _ => .bind fun _ hd => .result (dest hd) _)
  · exact frame_of_commit h (.bind fun _ _ => .bind fun _ hd => .bind fun _ _ => .result (dest hd) _)

/-- Settles O42: a handler that succeeds wrote `rd`, HIGH and LOW for `attack`, HIGH and LOW or nothing for `delay`. -/
theorem frameOfAttackAndDelay : Obligations.FrameOfAttackAndDelay := by
  refine ⟨fun s t rd rs rt h => ?attack, fun s t rs rt h => ?delay⟩
  case attack =>
    refine frame_of_commit h (.bind fun _ _ => .bind fun _ _ => .bind fun d hd => .ok (.setPc ?_ _))
    have hrd : (d.val : Int) ∈ [rd, 32, 33] := val_mem_of_regSlot_ok hd List.mem_cons_self
    exact (((RegistersOnly.refl _ s).setSlot hrd _).setSlot (by simp [highSlot]) _).setSlot (by simp [lowSlot]) _
  case delay =>
    refine frame_of_commit h (.bind fun _ _ => .bind fun _ _ => ?_)
    have kept := RegistersOnly.refl [32, 33] s
    split
    · exact .ok (kept.setPc _)
    · exact .ok (((kept.setSlot (by decide) _).setSlot (by decide) _).setPc _)

/-! ### `attack` -/

/-- The 64-bit pattern of R123 is the exact product. -/
theorem product_toInt (a b : Word) : (product a b).toInt = a.toInt * b.toInt := by
  have hlo := BitVec.le_toInt_mul_toInt (x := a) (y := b)
  have hhi := BitVec.toInt_mul_toInt_le (x := a) (y := b)
  exact BitVec.toInt_ofInt_eq_self (by decide) (by omega) (by omega)

/-- A 64-bit pattern from its high word, signed, and its low word, unsigned. -/
theorem toInt_of_halves (x : BitVec 64) :
    (x.extractLsb' 32 32).toInt * 2 ^ 32 + (x.extractLsb' 0 32).toNat = x.toInt := by
  have h := BitVec.toInt_append (x := x.extractLsb' 32 32) (y := x.extractLsb' 0 32)
  rw [BitVec.extractLsb'_append_extractLsb' (w := 32) (len := 32) (x := x)] at h
  rw [h, mul_comm]
  rfl

/-- Settles O16: HIGH and LOW are the halves of the product, and the last write to a slot stands. -/
theorem attackMultiplies : Obligations.AttackMultiplies := by
  refine ⟨decode_of_template ⟨.attack, 0x70000002#32, 0xFC0007FF#32⟩ (by decide), fun rd rs rt s =>
    ⟨_, exec_attack rd rs rt s, ?product, ?rd, ?kept, by rw [npc_eq]; rfl⟩⟩
  case product => simpa [highSlot, lowSlot, product_toInt] using toInt_of_halves (product (s.slot rs) (s.slot rt))
  case rd =>
    intro hrd
    simp [highSlot, lowSlot, Ne.symm hrd]
  case kept =>
    obtain ⟨hattack, -⟩ := frameOfAttackAndDelay
    obtain ⟨hslots, -⟩ := hattack s _ _ _ _ (exec_attack rd rs rt s)
    exact hslots

/-! ### `delay` -/

/-- The remainder of R124 is the library's remainder of division toward zero. -/
theorem remainder_eq_tmod (a b : Word) : remainder a b = a.toInt.tmod b.toInt := by
  rw [remainder, quotient, Int.tmod_def, Int.mul_comm]

theorem remainder_natAbs_lt (a b : Word) (hb : b ≠ 0#32) : (remainder a b).natAbs < b.toInt.natAbs := by
  have hb : b.toInt ≠ 0 := by simpa [← BitVec.toInt_inj] using hb
  rw [remainder_eq_tmod, Int.natAbs_tmod]
  exact Nat.mod_lt _ (Int.natAbs_pos.mpr hb)

/-- The remainder is zero or has the sign of the dividend (R124). -/
theorem remainder_sign (a b : Word) : remainder a b = 0 ∨ (remainder a b < 0 ↔ a.toInt < 0) := by
  have hsign := Int.sign_tmod a.toInt b.toInt
  rw [← remainder_eq_tmod] at hsign
  split at hsign
  · exact .inl (Int.sign_eq_zero_iff_zero.mp hsign)
  · exact .inr (by rw [← Int.sign_neg_iff, hsign, Int.sign_neg_iff])

/-- Settles O17: the quotient and the remainder are those of R124. -/
theorem delayDivides : Obligations.DelayDivides := by
  refine ⟨decode_of_template ⟨.delay, 0x0000001A#32, 0xFC00FFFF#32⟩ (by decide), fun rs rt s =>
    ⟨fun hzero => ?noop, fun hne => ⟨quotient (s.slot rs) (s.slot rt), remainder (s.slot rs) (s.slot rt), ?exact,
      remainder_natAbs_lt _ _ hne, remainder_sign _ _, ?written⟩⟩⟩
  case noop =>
    rw [exec_delay, if_pos hzero, npc_eq]
    rfl
  case exact => rw [remainder]; omega
  case written =>
    rw [exec_delay, if_neg hne, npc_eq]
    rfl

end Sys2Proof.Machine

/-! PROOFS. Statements of the family 42_loadstore: what `next` loads, and the frame of `hold`. -/
namespace Sys2Proof.Machine

/-! ### `next` -/

/-- `next` where the effective address is accepted: the Word there written to `rt` and `pc` moved on (R140). -/
theorem exec_next_of_accepts (rt base : Fin 34) (offset : BitVec 16) (s : State)
    (h : s.accepts (s.slot base + offset.signExtend 32)) :
    exec (.next rt.val offset base.val) s =
      .next ((s.setSlot rt (readWord s.mem (s.slot base + offset.signExtend 32).toNat)).setPc (s.pc + 4#32)) := by
  rw [exec_next, effectiveAddr_eq, memRead_of_accepts s _ h, npc_eq]
  rfl

/-- `next` at any other effective address latches `AddressError` with it and changes nothing else (R140, R209). -/
theorem exec_next_of_not_accepts (rt base : Fin 34) (offset : BitVec 16) (s : State)
    (h : ¬ s.accepts (s.slot base + offset.signExtend 32)) :
    exec (.next rt.val offset base.val) s =
      .next (s.latch .addressError (s.slot base + offset.signExtend 32)) := by
  rw [exec_next, effectiveAddr_eq, memRead_of_not_accepts s _ h]
  rfl

/-- Settles O18: the two ends of `next`, by whether its effective address is accepted. -/
theorem nextLoadsAWord : Obligations.NextLoadsAWord :=
  ⟨decode_of_template ⟨.next, 0x8C000000#32, 0xFC000000#32⟩ (by decide), fun rt base offset s =>
    ⟨exec_next_of_accepts rt base offset s, exec_next_of_not_accepts rt base offset s⟩⟩

/-! ### The frame of `hold` -/

/-- What `hold` did: it raised, or both operands name slots and it stored one Word at the effective address (R141). -/
theorem exec_hold_next (rt base : Int) (offset : BitVec 16) (s t : State) (h : exec (.hold rt offset base) s = .next t) :
    (∃ e, t = s.raise e) ∨
    ∃ d b : Fin 34, rt = d.val ∧ base = b.val ∧
      t = (s.setMem (effectiveAddr (s.slot b) offset) (s.slot d)).setPc s.npc := by
  rcases regSlot_cases base with ⟨b, rfl, -⟩ | ⟨hb, -⟩
  · rcases regSlot_cases rt with ⟨d, rfl, -⟩ | ⟨hd, -⟩
    · rw [exec_hold] at h
      rcases memWrite_cases s (effectiveAddr (s.slot b) offset) (s.slot d) with ⟨-, -, hw⟩ | ⟨-, hw⟩
      · rw [hw] at h
        cases h
        exact .inr ⟨d, b, rfl, rfl, rfl⟩
      · rw [hw] at h
        cases h
        exact .inl ⟨_, rfl⟩
    · simp [exec, execHold, readReg_bad s rt hd] at h
      exact .inl ⟨_, h.symm⟩
  · simp [exec, execHold, readReg_bad s base hb] at h
    exact .inl ⟨_, h.symm⟩

/-- Settles O43: a raised condition changes the latch alone; a completed `hold` stored one Word, whose base operand
names a slot. -/
theorem frameOfHold : Obligations.FrameOfHold := by
  intro s t rt base offset h
  rcases exec_hold_next rt base offset s t h with ⟨e, rfl⟩ | ⟨d, b, rfl, rfl, rfl⟩
  case inl =>
    exact ⟨fun _ _ => rfl, rfl, ⟨rfl, rfl⟩, ⟨rfl, rfl⟩, latchKeptOrTaken_raise s e, fun _ _ _ _ => rfl,
      fun _ _ => rfl⟩
  case inr =>
    refine ⟨fun _ _ => rfl, rfl, ⟨rfl, rfl⟩, ⟨rfl, rfl⟩, .inl rfl, fun j a hj ha => ?outside, fun hbad => ?badBase⟩
    case outside =>
      obtain rfl : b = j := Fin.ext (Int.ofNat_inj.mp hj)
      exact readByte_writeWord_ne s.mem _ a (s.slot d) ha
    case badBase => exact absurd (by omega) hbad

end Sys2Proof.Machine

/-! PROOFS. Statements of the family 43_control: the jump and the two branches, their frame, and the alignment of `pc`. -/
namespace Sys2Proof.Machine

/-! ### The alignment of `pc` -/

/-- A committed instruction from an aligned `pc` goes to `npc`, to a jump target or to a branch target, each aligned
(R154). -/
theorem Footprint.pc_aligned {s t : State} (hp : Footprint s t) (h : aligned s.pc = true) : aligned t.pc = true := by
  have hnpc : aligned s.npc = true := npc_aligned s h
  obtain hpc | ⟨target, hpc⟩ | ⟨offset, hpc⟩ := hp.pc <;> rw [hpc]
  · exact hnpc
  · exact jumpTarget_aligned s.npc target
  · exact branchTarget_aligned s.npc offset hnpc

/-- Settles O48: a raised condition leaves `pc`, and a committed instruction moves it to an aligned address. -/
theorem stepKeepsPcAligned : Obligations.StepKeepsPcAligned := by
  intro s t hs h
  obtain ⟨-, ⟨e, rfl, -⟩ | hp⟩ := stepWith_raised_or_committed encTable s t h
  · exact hs
  · exact (aligned_iff t.pc).mp (hp.pc_aligned ((aligned_iff s.pc).mpr hs))

/-! ### The branches -/

/-- Settles O21: `lineclear` goes to the branch target of R153 where the two slots are equal. -/
theorem lineclearBranchesIfEqual : Obligations.LineclearBranchesIfEqual := by
  refine ⟨decode_of_template ⟨.lineclear, 0x10000000#32, 0xFC000000#32⟩ (by decide), fun rs rt offset s => ?_⟩
  rw [exec_lineclear, branchTarget_eq, npc_eq]
  rfl

/-- Settles O22: `nonclear` goes to the branch target of R153 where the two slots differ. -/
theorem nonclearBranchesIfNotEqual : Obligations.NonclearBranchesIfNotEqual := by
  refine ⟨decode_of_template ⟨.nonclear, 0x14000000#32, 0xFC000000#32⟩ (by decide), fun rs rt offset s => ?_⟩
  rw [exec_nonclear, branchTarget_eq, npc_eq, ite_not]
  rfl

/-! ### The frame -/

/-- A handler that ends in moving `pc` changes no slot (R31). -/
theorem OkRegistersOnly.moved {W : List Int} {s : State} (a : Word) : OkRegistersOnly W s (.ok (s.setPc a)) :=
  .ok ((RegistersOnly.refl W s).setPc a)

/-- Settles O44: a handler of the three that succeeds moved `pc` alone. -/
theorem frameOfControlTransfers : Obligations.FrameOfControlTransfers := by
  intro s t i hi h
  obtain ⟨target, rfl⟩ | ⟨rs, rt, offset, rfl⟩ | ⟨rs, rt, offset, rfl⟩ := hi
  case inl => exact frame_of_commit (r := .ok (s.setPc (jumpTarget s.npc target))) h (.moved _)
  case inr.inl => exact frame_of_commit h (.bind fun _ _ => .bind fun _ _ => .moved _)
  case inr.inr => exact frame_of_commit h (.bind fun _ _ => .bind fun _ _ => .moved _)

/-! ### `shift` -/

/-- The jump target is the region of `npc` joined with the word index shifted left by 2 (R150): bits 0 and 1 are clear,
bits 2 to 27 are those of the index, the rest those of `npc`. -/
theorem jumpTarget_eq (npc : Word) (target : BitVec 26) :
    jumpTarget npc target = (npc &&& 0xF0000000#32) ||| (target.setWidth 32 <<< 2) := by
  have region : npc &&& 0xF0000000#32 = (npc.extractLsb' 28 4).setWidth 32 <<< 28 :=
    (extractLsb'_shifted_back npc 28 4).symm
  rw [region]
  apply BitVec.eq_of_getLsbD_eq
  intro i hi
  rw [jumpTarget, BitVec.getLsbD_append, BitVec.getLsbD_append]
  by_cases hclear : i < 2
  · simp [hclear, show i < 28 by omega]
  · by_cases hindex : i < 28
    · simp [hclear, hi, hindex, show i - 2 < 26 by omega]
    · have hbeyond : 26 ≤ i - 2 := by omega
      simp [hclear, hi, hindex, hbeyond, hbeyond.not_gt, show i - 2 - 26 = i - 28 by omega]

/-- Settles O20: the jump target of R150 is relative to the region of `npc`. -/
theorem shiftJumps : Obligations.ShiftJumps := by
  refine ⟨decode_of_template ⟨.shift, 0x08000000#32, 0xFC000000#32⟩ (by decide), fun target s => ?_⟩
  rw [exec_shift, jumpTarget_eq, npc_eq]
  rfl

end Sys2Proof.Machine

/-! PROOFS. Statements of the family 44_themed_alu: `ghostpiece` and `slowgravity`, the exchange of `rotate`, and the
frame of `rotate` and `combo`. -/
namespace Sys2Proof.Machine

/-! ### `ghostpiece` and `slowgravity` -/

/-- Settles O23: the sum written and emitted is the wrapping adder's of R118. -/
theorem ghostpieceAddsAndEmits : Obligations.GhostpieceAddsAndEmits := by
  refine ⟨decode_of_template ⟨.ghostpiece, 0x60000000#32, 0xFC000000#32⟩ (by decide), fun rt rs imm s => ?_⟩
  rw [exec_ghostpiece, addWrap_eq, npc_eq]
  rfl

/-- Settles O26: the difference written is the wrapping subtractor's of R118. -/
theorem slowgravitySubtractsImmediate : Obligations.SlowgravitySubtractsImmediate := by
  refine ⟨decode_of_template ⟨.slowgravity, 0x64000000#32, 0xFC000000#32⟩ (by decide), fun rt rs imm s => ?_⟩
  rw [exec_slowgravity, subWrap_eq, npc_eq]
  rfl

/-! ### The frame of `rotate` and `combo` -/

/-- A board update changes the ten board registers alone (R23). -/
theorem RegistersOnly.mapBoard (s : State) (f : Word → Word) : RegistersOnly boardIndices s (s.mapBoard f) where
  slots := slotsKeptBut_mapBoard s f
  mem := s.mapBoard_mem f
  out := s.mapBoard_out f
  draws := ⟨s.mapBoard_draws f, s.mapBoard_drawCount f⟩
  run := ⟨s.mapBoard_memMap f, s.mapBoard_endPc f⟩
  fault := s.mapBoard_fault f

/-- Settles O45: a `rotate` that succeeds wrote the slots its two operands name; `combo` is one board update. -/
theorem frameOfRotateAndCombo : Obligations.FrameOfRotateAndCombo := by
  refine ⟨fun s t rs rt h => ?rotate, fun s t imm h => ?combo⟩
  case rotate =>
    refine frame_of_commit h (.bind fun i hi => .bind fun j hj => .ok (.setPc ?_ _))
    have hrs : (i.val : Int) ∈ [rs, rt] := val_mem_of_regSlot_ok hi (by simp)
    have hrt : (j.val : Int) ∈ [rs, rt] := val_mem_of_regSlot_ok hj (by simp)
    exact ((RegistersOnly.refl _ s).setSlot hrs _).setSlot hrt _
  case combo =>
    cases (exec_combo imm s).symm.trans h
    obtain ⟨hslots, hmem, hout, hdraws, hrun, hfault⟩ :=
      (RegistersOnly.mapBoard s fun v => addWrap v (sext16 imm)).setPc s.npc
    exact ⟨hslots, fun a => by rw [hmem], hout, hdraws, hrun, hfault⟩

/-! ### `rotate` -/

/-- After `rotate` each slot holds what the slot it is exchanged with held (R167). -/
theorem exec_rotate_slot {rs rt : Fin 34} {s t : State} (h : exec (.rotate rs.val rt.val) s = .next t) (k : Fin 34) :
    t.slot k = s.slot (Equiv.swap rs rt k) := by
  cases (exec_rotate rs rt s).symm.trans h
  rw [State.setPc_slot, State.setSlot_slot, State.setSlot_slot]
  by_cases hrt : rt = k
  · rw [if_pos hrt, ← hrt, Equiv.swap_apply_right]
  · by_cases hrs : rs = k
    · rw [if_neg hrt, if_pos hrs, ← hrs, Equiv.swap_apply_left]
    · rw [if_neg hrt, if_neg hrs, Equiv.swap_apply_of_ne_of_ne (Ne.symm hrs) (Ne.symm hrt)]

/-- Settles O25: the two slots are exchanged, and the frame of O45 keeps the others. -/
theorem rotateSwaps : Obligations.RotateSwaps := by
  refine ⟨decode_of_template ⟨.rotate, 0x7C000000#32, 0xFC00FFFF#32⟩ (by decide), fun rs rt s =>
    ⟨_, exec_rotate rs rt s, ?rs, ?rt, ?kept, by rw [npc_eq]; rfl⟩⟩
  case rs => rw [exec_rotate_slot (exec_rotate rs rt s), Equiv.swap_apply_left]
  case rt => rw [exec_rotate_slot (exec_rotate rs rt s), Equiv.swap_apply_right]
  case kept =>
    obtain ⟨hrotate, -⟩ := frameOfRotateAndCombo
    obtain ⟨hslots, -⟩ := hrotate s _ _ _ (exec_rotate rs rt s)
    exact hslots

/-- Settles O34: an exchange of two slots is its own inverse. -/
theorem rotateTwiceRestores : Obligations.RotateTwiceRestores := by
  intro rs rt s t u hst htu
  refine regs_ext s u fun k => ?_
  rw [exec_rotate_slot htu, exec_rotate_slot hst, Equiv.swap_apply_self]

end Sys2Proof.Machine

/-! PROOFS. Statements of the family 45_board: the five board instructions, how their guards relate, and their frame. -/
namespace Sys2Proof.Machine

/-! ### Guarded transitions -/

/-- Where the guard holds the transition is applied whole, and `pc` advances (R185). -/
theorem guarded_of_guard {s u : State} {g : Bool} (hg : g = true) : s.guarded g u = .next (u.setPc (s.pc + 4#32)) := by
  rw [hg, ← npc_eq]
  rfl

/-- Where the guard fails `pc` advances alone (R185). -/
theorem guarded_of_not_guard {s u : State} {g : Bool} (hg : ¬ g = true) :
    s.guarded g u = .next { s with pc := s.pc + 4#32 } := by
  rw [Bool.eq_false_iff.mpr hg, ← npc_eq]
  rfl

/-! ### The board and the score -/

/-- The score is no board cell (R23). -/
theorem scoreSlot_ne_of_mem_boardSlots {j : Fin 34} (hj : j ∈ boardSlots) : scoreSlot ≠ j := by
  rintro rfl
  exact absurd hj (by decide)

/-- An update of the cells and the score keeps every other slot (R23). -/
theorem slotsKeptBut_mapBoard_setScore (s : State) (f : Word → Word) (v : Word) :
    slotsKeptBut (16 :: boardIndices) s ((s.mapBoard f).setSlot scoreSlot v) := by
  intro j hj
  obtain ⟨hscore, hcell⟩ := not_or.mp (mt List.mem_cons.mpr hj)
  have hne : scoreSlot ≠ j := by
    rintro rfl
    exact hscore rfl
  rw [State.setSlot_slot, if_neg hne, slotsKeptBut_mapBoard s f j hcell]

/-- An update of the cells and the score changes the register file alone (R23). -/
theorem mapBoard_setScore_eq (s : State) (f : Word → Word) (v : Word) :
    (s.mapBoard f).setSlot scoreSlot v = { s with regs := ((s.mapBoard f).setSlot scoreSlot v).regs } :=
  congrArg (·.setSlot scoreSlot v) (s.mapBoard_eq f)

/-- An update of the cells and the score that emits changes the register file and the history alone (R23, R36). -/
theorem mapBoard_setScore_emit_eq (s : State) (f : Word → Word) (v : Word) (e : Event) :
    ((s.mapBoard f).setSlot scoreSlot v).emit e =
      { s with regs := ((s.mapBoard f).setSlot scoreSlot v).regs, out := s.out ++ [e] } :=
  congrArg (·.emit e) (mapBoard_setScore_eq s f v)

/-- What a guarded update of the cells and the score does where its guard holds, whatever it emits (R187, R188, R190):
the score is no cell, so each cell is `f` of its value before. -/
theorem guarded_board_of_guard {s u : State} {g : Bool} {f : Word → Word} {v : Word} {events : List Event}
    (hg : g = true) (hu : u = { s with regs := ((s.mapBoard f).setSlot scoreSlot v).regs, out := events }) :
    ∃ t, s.guarded g u = .next t ∧ (∀ j ∈ boardSlots, t.slot j = f (s.slot j)) ∧ t.slot 16 = v ∧
      slotsKeptBut (16 :: boardIndices) s t ∧ t = { s with regs := t.regs, out := events, pc := s.pc + 4#32 } := by
  subst hu
  refine ⟨_, guarded_of_guard hg, fun j hj => ?cell, ?score, slotsKeptBut_mapBoard_setScore s f v, rfl⟩
  case cell =>
    calc ((s.mapBoard f).setSlot scoreSlot v).slot j
      _ = (s.mapBoard f).slot j := by rw [State.setSlot_slot, if_neg (scoreSlot_ne_of_mem_boardSlots hj)]
      _ = f (s.slot j) := by rw [State.mapBoard_slot, if_pos hj]
  case score => exact (State.setSlot_slot _ scoreSlot 16 v).trans (if_pos rfl)

/-! ### The five transitions -/

/-- Settles O28: the guard is `ALL_GE1` of R186. -/
theorem downstackTransition : Obligations.DownstackTransition := by
  refine ⟨decode_of_template ⟨.downstack, 0x7C000010#32, 0xFFFFFFFF#32⟩ (by decide) _ (by decide), fun s => ?_⟩
  rw [exec_downstack]
  simp only [subWrap_eq, addWrap_eq]
  refine ⟨fun hall => ?holds, fun ⟨j, hj, hlt⟩ => ?fails⟩
  case holds => exact guarded_board_of_guard ((allGe1_iff s).mpr hall) (mapBoard_setScore_eq s _ _)
  case fails => exact guarded_of_not_guard fun hg => hlt.not_ge ((allGe1_iff s).mp hg j hj)

/-- Settles O29: the guard is `ANY_GE20` of R186. -/
theorem topoutTransition : Obligations.TopoutTransition := by
  refine ⟨decode_of_template ⟨.topout, 0x7C000011#32, 0xFFFFFFFF#32⟩ (by decide) _ (by decide), fun s => ?_⟩
  rw [exec_topout]
  refine ⟨fun hany => ?holds, fun hall => ?fails⟩
  case holds => exact guarded_board_of_guard ((anyGe20_iff s).mpr hany) (mapBoard_setScore_emit_eq s (fun _ => 0#32) _ _)
  case fails =>
    refine guarded_of_not_guard fun hg => ?_
    obtain ⟨j, hj, hge⟩ := (anyGe20_iff s).mp hg
    exact (hall j hj).not_ge hge

/-- Settles O31: the guard is `ALL_GE4` of R186. -/
theorem tetrisTransition : Obligations.TetrisTransition := by
  refine ⟨decode_of_template ⟨.tetris, 0x7C000013#32, 0xFFFFFFFF#32⟩ (by decide) _ (by decide), fun s => ?_⟩
  rw [exec_tetris]
  simp only [subWrap_eq, addWrap_eq]
  refine ⟨fun hall => ?holds, fun ⟨j, hj, hlt⟩ => ?fails⟩
  case holds => exact guarded_board_of_guard ((allGe4_iff s).mpr hall) (mapBoard_setScore_emit_eq s _ _ _)
  case fails => exact guarded_of_not_guard fun hg => hlt.not_ge ((allGe4_iff s).mp hg j hj)

/-- Doubling a signed Word and wrapping is a shift left by 1 (R118, R189). -/
theorem wrap32_two_mul (v : Word) : wrap32 (2 * v.toInt) = v <<< 1 := by
  rw [two_mul, wrap32_add, wrap32_self_toInt, BitVec.shiftLeft_eq_mul_twoPow]
  bv_omega

/-- Settles O30: the guard is `ALL_EQ0` of R186; the score doubled is the score shifted. -/
theorem allclearTransition : Obligations.AllclearTransition := by
  refine ⟨decode_of_template ⟨.allclear, 0x7C000012#32, 0xFFFFFFFF#32⟩ (by decide) _ (by decide), fun s => ?_⟩
  rw [exec_allclear, wrap32_two_mul]
  refine ⟨fun hall => ?holds, fun ⟨j, hj, hne⟩ => ?fails⟩
  case holds => exact guarded_of_guard ((allEq0_iff s).mpr hall)
  case fails => exact guarded_of_not_guard fun hg => hne ((allEq0_iff s).mp hg j hj)

/-- Settles O32: the Board View of R23 lists the ten cells in order. -/
theorem viewboardEmitsTheBoard : Obligations.ViewboardEmitsTheBoard := by
  refine ⟨decode_of_template ⟨.viewboard, 0x7C000014#32, 0xFFFFFFFF#32⟩ (by decide) _ (by decide), fun s => ?_⟩
  rw [exec_viewboard, npc_eq]
  rfl

/-! ### How the guards relate -/

/-- Settles O33: the first cell alone tells `ALL_EQ0` from `ALL_GE1` and `ALL_GE4`; a board of 20s and one with a single
20 show that `ANY_GE20` is independent of both. -/
theorem boardGuardsRelate : Obligations.BoardGuardsRelate := by
  refine ⟨fun s h4 => ?implies, fun s h0 => ?excludes,
    ⟨State.reset.mapBoard fun _ => 20#32, by decide⟩, ⟨State.reset.setSlot 8 20#32, by decide⟩⟩
  case implies =>
    rw [allGe1_iff]
    exact fun k hk => le_trans (by decide) ((allGe4_iff s).mp h4 k hk)
  case excludes =>
    have hzero (k : Fin 34) (hk : k ∈ boardSlots) : (s.slot k).toInt = 0 := by
      rw [(allEq0_iff s).mp h0 k hk]
      rfl
    have hfirst : (8 : Fin 34) ∈ boardSlots := by decide
    simp only [← Bool.not_eq_true, allGe1_iff, anyGe20_iff, allGe4_iff]
    refine ⟨fun h1 => ?_, fun ⟨k, hk, h20⟩ => ?_, fun h4 => ?_⟩
    · exact absurd (h1 8 hfirst) (by simp [hzero 8 hfirst])
    · exact absurd h20 (by simp [hzero k hk])
    · exact absurd (h4 8 hfirst) (by simp [hzero 8 hfirst])

/-! ### The frame -/

/-- A frame that names more slots says less. -/
theorem slotsKeptBut_mono {V W : List Int} {s t : State} (hVW : V ⊆ W) (h : slotsKeptBut V s t) : slotsKeptBut W s t :=
  fun j hj => h j fun hV => hj (hVW hV)

/-- An event changes no slot (R36). -/
@[simp] theorem slotsKeptBut_emit (W : List Int) (s t : State) (e : Event) :
    slotsKeptBut W s (t.emit e) ↔ slotsKeptBut W s t := Iff.rfl

/-- A guarded transition keeps the slots its transition keeps (R185). -/
theorem slotsKeptBut_of_guarded {W : List Int} {s u t : State} {g : Bool} (hu : slotsKeptBut W s u)
    (h : s.guarded g u = .next t) : slotsKeptBut W s t := by
  obtain ⟨-, rfl⟩ | ⟨-, rfl⟩ := guarded_cases s u t g h
  · exact hu
  · exact fun _ _ => rfl

/-- An instruction without register operands that neither overflows nor accesses memory never raises (R204, R205). -/
theorem footprint_of_no_operands {i : Instr} {s t : State} (hops : accessOrder i = [])
    (hovf : mnemonicOf i ∉ [Mnemonic.harddrop, .stack, .garbage]) (hmem : mnemonicOf i ∉ [Mnemonic.next, .hold])
    (h : exec i s = .next t) : Footprint s t := by
  obtain ⟨e, -, ⟨r, hr, -⟩ | ⟨-, hm⟩ | ⟨-, -, hm⟩⟩ | hp := exec_cases i s t h
  · simp [hops] at hr
  · exact absurd hm hovf
  · exact absurd hm hmem
  · exact hp

/-- `allclear` writes the score alone (R189). -/
theorem exec_allclear_slots {s t : State} (h : exec .allclear s = .next t) : slotsKeptBut [16] s t := by
  rw [exec_allclear] at h
  exact slotsKeptBut_of_guarded ((slotsKeptBut_emit _ _ _ _).mpr
    ((RegistersOnly.refl [16] s).setSlot (j := scoreSlot) (by decide) _).slots) h

/-- `viewboard` writes no slot (R191). -/
theorem exec_viewboard_slots {s t : State} (h : exec .viewboard s = .next t) : slotsKeptBut [] s t := by
  cases (exec_viewboard s).symm.trans h
  exact fun _ _ => rfl

/-- The five write the cells and the score alone (R187 to R191). -/
theorem exec_board_slots {s t : State} {i : Instr} (hi : i ∈ [Instr.downstack, .topout, .allclear, .tetris, .viewboard])
    (h : exec i s = .next t) : slotsKeptBut (16 :: boardIndices) s t := by
  have update := slotsKeptBut_mapBoard_setScore s
  simp only [List.mem_cons, List.not_mem_nil, or_false] at hi
  obtain rfl | rfl | rfl | rfl | rfl := hi
  · exact slotsKeptBut_of_guarded (update _ _) (exec_downstack s ▸ h)
  · exact slotsKeptBut_of_guarded ((slotsKeptBut_emit _ _ _ _).mpr (update _ _)) (exec_topout s ▸ h)
  · exact slotsKeptBut_mono (by simp) (exec_allclear_slots h)
  · exact slotsKeptBut_of_guarded ((slotsKeptBut_emit _ _ _ _).mpr (update _ _)) (exec_tetris s ▸ h)
  · exact slotsKeptBut_mono (by simp) (exec_viewboard_slots h)

/-- Settles O46: the slots by `exec_board_slots`; the rest is what an instruction that cannot raise keeps (`Footprint`)
and what one that is none of `hold`, `attack`, `delay` and `drop` keeps (`exec_keepsSpecials`). -/
theorem frameOfBoardInstructions : Obligations.FrameOfBoardInstructions := by
  intro s t
  refine ⟨fun i hi h => ?frame, fun h => ?silent, exec_allclear_slots, exec_viewboard_slots⟩
  case frame =>
    have hform : ∀ i ∈ [Instr.downstack, .topout, .allclear, .tetris, .viewboard],
        accessOrder i = [] ∧ i.wf = true ∧ mnemonicOf i ∉ [Mnemonic.harddrop, .stack, .garbage] ∧
        mnemonicOf i ∉ [Mnemonic.next, .hold] ∧ mnemonicOf i ∉ [Mnemonic.hold, .attack, .delay, .drop] := by decide
    obtain ⟨hops, hwf, hovf, hmem, hspecial⟩ := hform i hi
    have foot := footprint_of_no_operands hops hovf hmem h
    have kept := exec_keepsSpecials i s t hwf hspecial h
    exact ⟨exec_board_slots hi h, fun a => by rw [kept.mem], kept.draws, ⟨foot.memMap, foot.endPc⟩, foot.fault⟩
  case silent =>
    rw [exec_downstack] at h
    obtain ⟨-, rfl⟩ | ⟨-, rfl⟩ := guarded_cases _ _ _ _ h
    · simp [outputKept]
    · rfl

end Sys2Proof.Machine

/-! PROOFS. Statements of the family 60_exceptions: which instruction raises which condition, with what info, and what
the latch can hold. -/
namespace Sys2Proof.Machine

/-! ### What each condition says of the instruction that raised it -/

/-- A raised `InvalidRegister` names an operand outside 0..33 (R207). -/
theorem MayRaise.invalidRegister {i : Instr} {s : State} {e : Raised} (h : MayRaise i s e)
    (he : e.cond = .invalidRegister) : ∃ r ∈ accessOrder i, ¬ (0 ≤ r ∧ r ≤ 33) := by
  obtain ⟨r, hr, hbad, -⟩ | ⟨rfl, -⟩ | ⟨haddr, -, -⟩ := h
  · exact ⟨r, hr, hbad⟩
  · cases he
  · cases haddr.symm.trans he

/-- A raised `ArithmeticOverflow` has info 0 and comes from one of the three checked instructions (R204, R205). -/
theorem MayRaise.arithmeticOverflow {i : Instr} {s : State} {e : Raised} (h : MayRaise i s e)
    (he : e.cond = .arithmeticOverflow) : e.info = 0#32 ∧ mnemonicOf i ∈ [Mnemonic.harddrop, .stack, .garbage] := by
  obtain ⟨r, -, -, rfl⟩ | ⟨rfl, hm⟩ | ⟨haddr, -, -⟩ := h
  · cases he
  · exact ⟨rfl, hm⟩
  · cases haddr.symm.trans he

/-- A raised `AddressError` has an address that no access takes as its info and comes from `next` or `hold`
(R204, R206). -/
theorem MayRaise.addressError {i : Instr} {s : State} {e : Raised} (h : MayRaise i s e)
    (he : e.cond = .addressError) : ¬ s.accepts e.info ∧ mnemonicOf i ∈ [Mnemonic.next, .hold] := by
  obtain ⟨r, -, -, rfl⟩ | ⟨rfl, -⟩ | ⟨-, hbad, hm⟩ := h
  · cases he
  · cases he
  · exact ⟨mt (accepts_iff s e.info).mp hbad, hm⟩

/-- No instruction raises `UnknownInstruction`: it is the decoder's (R208). -/
theorem MayRaise.ne_unknownInstruction {i : Instr} {s : State} {e : Raised} (h : MayRaise i s e) :
    e.cond ≠ .unknownInstruction := by
  obtain ⟨r, -, -, rfl⟩ | ⟨rfl, -⟩ | ⟨haddr, -, -⟩ := h
  · simp
  · simp
  · simp [haddr]

/-- From an unlatched state, what an instruction latched is what it raised, and the latch alone changed (R103, R209). -/
theorem exec_latched {i : Instr} {s t : State} {f : FaultRecord} (hs : s.fault = none) (h : exec i s = .next t)
    (hf : t.fault = some f) : t = s.latch f.cond f.info ∧ MayRaise i s ⟨f.cond, f.info⟩ := by
  obtain ⟨e, rfl, he⟩ | hp := exec_cases i s t h
  · cases hf
    exact ⟨rfl, he⟩
  · cases hs.symm.trans (hp.fault.symm.trans hf)

/-! ### The latch invariant -/

/-- A raised condition leaves a latch that a decoded program can leave where the condition is one it can raise
(R26, R204). -/
theorem latchOk_raise (s : State) (e : Raised) (hreg : e.cond ≠ .invalidRegister)
    (hovf : e.cond = .arithmeticOverflow → e.info = 0#32)
    (hillegal : e.cond = .unknownInstruction → decode e.info = .illegal e.info)
    (haddr : e.cond = .addressError → ¬ s.accepts e.info) : (s.raise e).latchOk := by
  intro r hr
  cases hr
  exact ⟨rfl, hreg, hovf, hillegal, haddr⟩

/-- Settles O49: a step starts unlatched, so the latch is empty after a committed instruction, and otherwise holds what
the fetch, the decoder or the decoded instruction raised. -/
theorem stepKeepsLatchOk : Obligations.StepKeepsLatchOk := by
  intro s t _ h
  obtain ⟨hs, -, ⟨hbad, rfl⟩ | ⟨w, -, hillegal, rfl⟩ | ⟨w, i, -, hd, hx⟩⟩ := stepWith_next encTable s t h
  case inl =>
    exact latchOk_raise s _ (by simp) (by simp) (by simp) fun _ => mt (accepts_iff s s.pc).mp hbad
  case inr.inl =>
    exact latchOk_raise s _ (by simp) (by simp) (fun _ => hillegal) (by simp)
  case inr.inr =>
    obtain ⟨e, rfl, he⟩ | hp := exec_cases i s t hx
    · exact latchOk_raise s e (ne_invalidRegister_of_decoded encTable w i s e hd he)
        (fun hc => (he.arithmeticOverflow hc).1) (fun hc => absurd hc he.ne_unknownInstruction)
        (fun hc => (he.addressError hc).1)
    · intro r hr
      cases hs.symm.trans (hp.fault.symm.trans hr)

/-! ### The first bad operand -/

/-- The first index outside 0..33 in a list of accesses (R207). -/
def firstBad (accesses : List Int) : Option Int := accesses.find? fun r => !decide (0 ≤ r ∧ r ≤ 33)

/-- An index in front is the first bad one where it is bad, else that of the rest counts. -/
theorem firstBad_cons (i : Int) (accesses : List Int) :
    firstBad (i :: accesses) = if 0 ≤ i ∧ i ≤ 33 then firstBad accesses else some i := by
  split
  case isTrue h => exact List.find?_cons_of_neg (by simp [h])
  case isFalse h => exact List.find?_cons_of_pos (congrArg not (decide_eq_false h))

/-- A handler's result raises `InvalidRegister` with the first bad index of its accesses, where there is one
(R207, R212). -/
def RaisesFirstBad (accesses : List Int) (result : Except Raised State) : Prop :=
  ∀ r, firstBad accesses = some r → result = .error ⟨.invalidRegister, wrap32 r⟩

namespace RaisesFirstBad

variable {accesses : List Int} {s : State} {i : Int}

theorem nil {result : Except Raised State} : RaisesFirstBad [] result := fun _ h => nomatch h

/-- A destination index is checked before the accesses of the rest (R25). -/
theorem slot {f : Fin 34 → Except Raised State} (h : ∀ j, RaisesFirstBad accesses (f j)) :
    RaisesFirstBad (i :: accesses) (regSlot i >>= f) := by
  intro r hr
  rw [firstBad_cons] at hr
  obtain ⟨j, rfl, hj⟩ | ⟨hbad, hi⟩ := regSlot_cases i
  · rw [if_pos (by omega)] at hr
    rw [hj]
    exact h j r hr
  · rw [if_neg hbad] at hr
    cases hr
    rw [hi]
    rfl

/-- A register read is a checked index followed by the slot's Word (R24). -/
theorem read {f : Word → Except Raised State} (h : ∀ a, RaisesFirstBad accesses (f a)) :
    RaisesFirstBad (i :: accesses) (s.readReg i >>= f) := by
  have hread : (s.readReg i >>= f) = regSlot i >>= fun j => f (s.slot j) := by
    rw [State.readReg]
    cases regSlot i <;> rfl
  rw [hread]
  exact slot fun j => h (s.slot j)

end RaisesFirstBad

/-- Every instruction commits a handler that accesses its registers in the order of `accessOrder` (R207, log 10). -/
theorem exec_commits_raisesFirstBad (i : Instr) (s : State) :
    ∃ result, exec i s = s.commit result ∧ RaisesFirstBad (accessOrder i) result := by
  cases i with
  | harddrop => exact ⟨_, rfl, .read fun _ => .slot fun _ => .nil⟩
  | stack => exact ⟨_, rfl, .read fun _ => .read fun _ => .slot fun _ => .nil⟩
  | garbage => exact ⟨_, rfl, .read fun _ => .read fun _ => .slot fun _ => .nil⟩
  | attack => exact ⟨_, rfl, .read fun _ => .read fun _ => .slot fun _ => .nil⟩
  | delay => exact ⟨_, rfl, .read fun _ => .read fun _ => .nil⟩
  | next => exact ⟨_, rfl, .read fun _ => .slot fun _ => .nil⟩
  | hold => exact ⟨_, rfl, .read fun _ => .read fun _ => .nil⟩
  | shift => exact ⟨.ok _, rfl, .nil⟩
  | lineclear => exact ⟨_, rfl, .read fun _ => .read fun _ => .nil⟩
  | nonclear => exact ⟨_, rfl, .read fun _ => .read fun _ => .nil⟩
  | ghostpiece => exact ⟨_, rfl, .read fun _ => .slot fun _ => .nil⟩
  | drop => exact ⟨_, rfl, .slot fun _ => .nil⟩
  | rotate => exact ⟨_, rfl, .slot fun _ => .slot fun _ => .nil⟩
  | slowgravity => exact ⟨_, rfl, .read fun _ => .slot fun _ => .nil⟩
  | combo => exact ⟨.ok _, rfl, .nil⟩
  | downstack => exact ⟨.ok _, rfl, .nil⟩
  | topout => exact ⟨.ok _, rfl, .nil⟩
  | allclear => exact ⟨.ok _, rfl, .nil⟩
  | tetris => exact ⟨.ok _, rfl, .nil⟩
  | viewboard => exact ⟨.ok _, rfl, .nil⟩

/-- An instruction with a bad operand latches `InvalidRegister` with the first one and changes nothing else
(R207, R209). -/
theorem exec_of_firstBad {i : Instr} {r : Int} (s : State) (h : firstBad (accessOrder i) = some r) :
    exec i s = .next (s.latch .invalidRegister (wrap32 r)) := by
  obtain ⟨result, hexec, hresult⟩ := exec_commits_raisesFirstBad i s
  rw [hexec, hresult r h]
  rfl

/-- Settles O36: a bad operand with only good ones before it is the first bad one; without a bad operand, and so for
every decoded word, nothing may raise `InvalidRegister`. -/
theorem invalidRegisterAtTheFirstBadOperand : Obligations.InvalidRegisterAtTheFirstBadOperand := by
  refine ⟨fun i s pre post r hsplit hpre hr => ?raised, fun i s t hgood hs h f hf hc => ?silent,
    fun w i hd q hq => ?decoded⟩
  case raised =>
    refine exec_of_firstBad s (List.find?_eq_some_iff_append.mpr ⟨by simp [hr], pre, post, hsplit, fun q hq => ?_⟩)
    simp [hpre q hq]
  case silent =>
    obtain ⟨-, hraise⟩ := exec_latched hs h hf
    obtain ⟨r, hr, hbad⟩ := hraise.invalidRegister hc
    exact hbad (hgood r hr)
  case decoded =>
    obtain ⟨row, -, -, rfl⟩ := decodeWith_resolved encTable w i hd
    exact accessOrder_resolve row.mnemonic w q hq

/-! ### Overflow -/

/-- The checked end of R120 to R122 on overflow: the latch alone changes (R205). -/
theorem commit_checkedWrite_of_ovf (s : State) (d : Fin 34) {ovf : Bool} (v : Word) (h : ovf = true) :
    s.commit (s.checkedWrite d ovf v) = .next (s.latch .arithmeticOverflow 0#32) := by
  subst h
  rfl

/-- A checked end that latched something overflowed. -/
theorem ovf_of_latched {s t : State} {d : Fin 34} {ovf : Bool} {v : Word} {f : FaultRecord} (hs : s.fault = none)
    (h : s.commit (s.checkedWrite d ovf v) = .next t) (hf : t.fault = some f) : ovf = true := by
  obtain ⟨hovf, -⟩ | ⟨-, rfl⟩ := checkedWrite_cases s t d ovf v h
  · exact hovf
  · cases hs.symm.trans hf

/-- An instruction that did not latch `InvalidRegister` accessed slots only (R207). -/
theorem exists_slot_of_latched {i : Instr} {s t : State} {f : FaultRecord} (h : exec i s = .next t)
    (hf : t.fault = some f) (hc : f.cond ≠ .invalidRegister) : ∀ q ∈ accessOrder i, ∃ j : Fin 34, q = j.val := by
  intro q hq
  cases hbad : firstBad (accessOrder i) with
  | some r =>
    cases (exec_of_firstBad s hbad).symm.trans h
    cases hf
    exact absurd rfl hc
  | none =>
    have hgood : 0 ≤ q ∧ q ≤ 33 := by simpa using List.find?_eq_none.mp hbad q hq
    obtain ⟨j, hj, -⟩ | ⟨hq33, -⟩ := regSlot_cases q
    · exact ⟨j, hj⟩
    · exact absurd hgood hq33

/-- The instructions of the three mnemonics with an overflow check. -/
theorem checked_of_mnemonic {i : Instr} (h : mnemonicOf i ∈ [Mnemonic.harddrop, .stack, .garbage]) :
    (∃ rt rs imm, i = .harddrop rt rs imm) ∨ (∃ rd rs rt, i = .stack rd rs rt) ∨ ∃ rd rs rt, i = .garbage rd rs rt := by
  cases i <;> simp [mnemonicOf] at h ⊢

/-- Settles O38: the three on slots by their checked end; whatever latches an overflow is one of the three, accessed
slots only, and so reached its checked end. -/
theorem overflowOnlyFromTheCheckedThree : Obligations.OverflowOnlyFromTheCheckedThree := by
  refine ⟨fun d a b imm s => ⟨fun h => ?harddrop, fun h => ?stack, fun h => ?garbage⟩, fun i s t hs h f hf hc => ?only⟩
  case harddrop => exact (exec_harddrop d a imm s).trans (commit_checkedWrite_of_ovf s d _ h)
  case stack => exact (exec_stack d a b s).trans (commit_checkedWrite_of_ovf s d _ h)
  case garbage => exact (exec_garbage d a b s).trans (commit_checkedWrite_of_ovf s d _ h)
  case only =>
    obtain ⟨ht, hraise⟩ := exec_latched hs h hf
    refine ⟨by rw [ht]; rfl, ?_⟩
    have hslots := exists_slot_of_latched h hf (by simp [hc])
    obtain ⟨-, hm⟩ := hraise.arithmeticOverflow hc
    obtain ⟨rt, rs, imm, rfl⟩ | ⟨rd, rs, rt, rfl⟩ | ⟨rd, rs, rt, rfl⟩ := checked_of_mnemonic hm <;>
      simp only [accessOrder, List.forall_mem_cons] at hslots
    · obtain ⟨⟨a, rfl⟩, ⟨d, rfl⟩, -⟩ := hslots
      exact .inl ⟨d, a, imm, rfl, ovf_of_latched hs (exec_harddrop d a imm s ▸ h) hf⟩
    · obtain ⟨⟨a, rfl⟩, ⟨b, rfl⟩, ⟨d, rfl⟩, -⟩ := hslots
      exact .inr (.inl ⟨d, a, b, rfl, ovf_of_latched hs (exec_stack d a b s ▸ h) hf⟩)
    · obtain ⟨⟨a, rfl⟩, ⟨b, rfl⟩, ⟨d, rfl⟩, -⟩ := hslots
      exact .inr (.inr ⟨d, a, b, rfl, ovf_of_latched hs (exec_garbage d a b s ▸ h) hf⟩)

/-! ### Bad addresses -/

/-- The instructions of the two mnemonics that access memory. -/
theorem access_of_mnemonic {i : Instr} (h : mnemonicOf i ∈ [Mnemonic.next, .hold]) :
    (∃ rt offset base, i = .next rt offset base) ∨ ∃ rt offset base, i = .hold rt offset base := by
  cases i <;> simp [mnemonicOf] at h ⊢

/-- Settles O39: the access check, the two instructions and the fetch that make it, and that nothing else raises
`AddressError`. -/
theorem addressErrorFromBadAddresses : Obligations.AddressErrorFromBadAddresses := by
  refine ⟨fun s a v => ⟨fun ha => ?accepted, fun hbad => ?refused⟩, fun rt base offset s hbad => ?instructions,
    fetchFromBadPcRaisesAddressError, fun i s t hs h f hf hc => ?only⟩
  case accepted => exact ⟨⟨_, memRead_of_accepts s a ha⟩, _, memWrite_of_accepts s a v ha⟩
  case refused => exact ⟨memRead_of_not_accepts s a hbad, memWrite_of_not_accepts s a v hbad⟩
  case instructions =>
    exact ⟨exec_next_of_not_accepts rt base offset s hbad, exec_hold_of_not_accepts rt base offset s hbad⟩
  case only =>
    obtain ⟨ht, hraise⟩ := exec_latched hs h hf
    obtain ⟨hbad, hm⟩ := hraise.addressError hc
    exact ⟨hbad, by rw [ht]; rfl, by rw [ht]; rfl, access_of_mnemonic hm⟩

end Sys2Proof.Machine

/-! PROOFS. Statements of the family 70_reset_and_hazards: the machine right after reset, and the run that `rst` starts. -/
namespace Sys2Proof.Machine

/-! ### Which states step -/

/-- An unlatched state whose run has not ended has a next state, under any table: the fetch or the decoder raises, or
the instruction runs, which is total (R107, R111). -/
theorem exists_stepWith_next (T : List EncRow) (s : State) (hf : s.fault = none) (he : s.endPc ≠ some s.pc) :
    ∃ t, stepWith T s = .next t := by
  cases hr : s.memRead s.pc with
  | error e => exact ⟨_, stepWith_of_fetch_error T s e hf he hr⟩
  | ok w =>
    cases hd : decodeWith T w with
    | illegal v =>
      obtain rfl := decodeWith_illegal_word T w v hd
      exact ⟨_, stepWith_of_illegal T s v hf he hr hd⟩
    | resolved i =>
      obtain ⟨t, ht⟩ := exec_total i s
      exact ⟨t, (stepWith_of_decoded T s w i hf he hr hd).trans ht⟩

/-- Settles O57: `rst` assigns the state's fields, and the unlatched state it leaves steps unless `PC_RESET` is the end
address. -/
theorem rstStartsARun : Obligations.RstStartsARun := by
  intro s p
  have hruns : s.endPc ≠ some p.pcReset → ∃ t, step (s.assertRst p) = .next t := fun he =>
    exists_stepWith_next encTable (s.assertRst p) (State.assertRst_fault s p) (by simpa using he)
  exact ⟨State.assertRst_slot s p, State.assertRst_pc s p, State.assertRst_fault s p, State.assertRst_out s p,
    fun _ => rfl, ⟨State.assertRst_memMap s p, State.assertRst_endPc s p⟩, hruns⟩

/-! ### The state at reset -/

@[simp] theorem State.reset_pc : State.reset.pc = 0x00001000#32 := rfl
@[simp] theorem State.reset_mem : State.reset.mem = [] := rfl
@[simp] theorem State.reset_fault : State.reset.fault = none := rfl
@[simp] theorem State.reset_endPc : State.reset.endPc = none := rfl
@[simp] theorem State.reset_memMap : State.reset.memMap = [⟨0x00000000#32, 0xFFFFFFFC#32⟩] := rfl

/-- Every slot is 0 at reset (R236, log 4). -/
@[simp] theorem State.reset_slot (j : Fin 34) : State.reset.slot j = 0#32 :=
  Vector.getElem_replicate j.isLt

/-- An empty latch meets the latch invariant. -/
theorem latchOk_of_unlatched (s : State) (hf : s.fault = none) : s.latchOk := by
  intro r hr
  cases hf.symm.trans hr

/-- A memory with nothing loaded reads as zero words (log 1). -/
theorem readWord_nil (a : Nat) : readWord [] a = 0#32 := by
  simp [readWord, readByte, unlistedByte]

/-- The `pc` at reset is aligned and mapped, so the fetch takes it (R106; logs 2 and 3). -/
theorem reset_accepts_pc : State.reset.accepts State.reset.pc := by
  simp [State.accepts]

/-- Settles O56: the fetch at reset reads the zero word of a memory with nothing loaded, which is illegal by O5. -/
theorem resetState : Obligations.ResetState := by
  have hread : State.reset.memRead State.reset.pc = .ok 0#32 :=
    (memRead_of_accepts _ _ reset_accepts_pc).trans (congrArg Except.ok (readWord_nil _))
  obtain ⟨-, -, -, -, -, -, hillegal, -⟩ := decodeOfSpecWords
  have hstep : step State.reset = .next (State.reset.latch .unknownInstruction 0#32) :=
    stepWith_of_illegal encTable State.reset 0#32 State.reset_fault (by simp) hread hillegal
  exact ⟨State.reset_fault, rfl, rfl, State.reset_slot, rfl, by simp [State.memInMap], reset_accepts_pc.1,
    latchOk_of_unlatched _ State.reset_fault, hstep⟩

end Sys2Proof.Machine
